-- ==== Sys2Proof/Word.lean ====
section
/-! DEFINITION. The words of the block: bytes, the two command fields, the input vector. -/

namespace Sys2Proof

/-- A byte: 8 bits, bit 7 the most significant (R16). -/
abbrev Byte := BitVec 8

/-- The declared length `cmd_len`, `LEN_W` = 8 bits (R15, R70). -/
abbrev LenField := BitVec 8

/-- The payload field `cmd_data`, ten bytes, byte `i` in bits `[8i+7 : 8i]` (R56, R70). -/
abbrev DataField := BitVec 80

/-- The input vector `I` sampled at an edge: 91 bits (R71). -/
abbrev InputVec := BitVec 91

/-- The level of a wire during one tick: `false` is 0 (low), `true` is 1 (high) (R18). -/
abbrev Level := Bool

/-- A waveform: one level per tick (R18). -/
abbrev Waveform := List Level

/-- A pulse pair (symbol): high ticks, then low ticks (R18). -/
abbrev PulsePair := Nat × Nat

end Sys2Proof
end

