-- ==== Sys2Proof/Config.lean ====
section
/-! DEFINITION. The parameters fixed when the block is built (R9 to R15), as one configuration record, and the
free constants that stand for the parameters the spec leaves OPEN. -/

namespace Sys2Proof

/-- A colour in domain order red, green, blue (R21, R55): a ColorCommand, `last_color`, `DEFAULT_COLOR`. -/
structure Color where
  r : Byte
  g : Byte
  b : Byte
  deriving DecidableEq, Repr, Inhabited

/-- The parameters of R9 to R14, as plain numbers (a list of parameters that no block has is still a `Params`). -/
structure Params where
  /-- `PIXEL_COUNT` (R9). -/
  pixelCount : Nat
  /-- `QUEUE_DEPTH` (R10). -/
  queueDepth : Nat
  /-- `MIN_LEN` (R11). -/
  minLen : Nat
  /-- `MAX_LEN` (R11). -/
  maxLen : Nat
  /-- `RESOLUTION_HZ`, the tick rate in hertz (R12). -/
  resolutionHz : Nat
  /-- `DEFAULT_COLOR` (R13). -/
  defaultColor : Color
  /-- `RESET_TICKS` (R14): read by no operation, only by the host's duty (R230). -/
  resetTicks : Nat
  deriving DecidableEq, Repr

/-- The lowest valid `RESOLUTION_HZ` (R12, R123). -/
def minResolutionHz : Nat := 1250000

/-- How many payload bytes the command port carries (R70: `cmd_data` is 80 bits). -/
def portBytes : Nat := 10

/-- A configuration is valid: every tick count is at least 1, which holds exactly when the rate is at least
1250000 (R12, R123); there is a pixel and a queue slot (R9, R10, U2); the length bounds are a range inside what
the port carries (R11, R70). -/
abbrev Params.Valid (p : Params) : Prop :=
  1 ≤ p.pixelCount ∧ 1 ≤ p.queueDepth ∧ minResolutionHz ≤ p.resolutionHz ∧
    1 ≤ p.minLen ∧ p.minLen ≤ p.maxLen ∧ p.maxLen ≤ portBytes

/-- The configuration record of a block. An invalid one is no block (R123, U2): it cannot be built. -/
structure Config extends Params where
  valid : toParams.Valid

/-- `FRAME_BYTES = PIXEL_COUNT * 3` (R9). -/
def Config.frameBytes (c : Config) : Nat := c.pixelCount * 3

/-- `FRAME_BITS = FRAME_BYTES * 8` (R9). -/
def Config.frameBits (c : Config) : Nat := c.frameBytes * 8

/-- `POWER_LEN` (R11). -/
def powerLen : Nat := 1

/-- `PBUF_BYTES = MAX_LEN + 1` (R11, U4). -/
def Config.pbufBytes (c : Config) : Nat := c.maxLen + 1

/-- FREE VALUE for the OPEN parameter `RESOLUTION_HZ` (R12, D3, U3): how far the block's rate lies above the lowest
valid one. Every valid rate is `minResolutionHz` plus such a number. Log entry 2. -/
opaque Config.theRateAboveMinimum : Nat

/-- FREE VALUE for the OPEN parameter `DEFAULT_COLOR` (R13, D21, U3). Log entry 3. -/
opaque Config.theDefaultColor : Color

/-- FREE VALUE for the OPEN parameter `RESET_TICKS` (R14, D23, U3). Log entry 4. -/
opaque Config.theResetTicks : Nat

end Sys2Proof
end

