-- ==== Sys2Proof/Syntax.lean ====
section
/-! DEFINITION. The four operations of the block (R3), one constructor per row of spec/opcode_table.json. -/

namespace Sys2Proof

/-- One operation is executed at every clock tick (R3). The operands are the fields of the input vector that the
operation reads (R71, R72); a field an operation ignores (R73) is no operand. -/
inductive Instr where
  /-- `RESET` (R171): `rst = 1`. -/
  | reset
  /-- `NOP` (R172): `rst = 0`, `cmd_valid = 0`. -/
  | nop
  /-- `SET_COLOR` (R174): `cmd_char = 0`, with the declared length and the payload. -/
  | setColor (len : LenField) (data : DataField)
  /-- `SET_POWER` (R175): `cmd_char = 1`, with the declared length and the payload. -/
  | setPower (len : LenField) (data : DataField)
  deriving DecidableEq, Repr

end Sys2Proof
end

