-- ==== Sys2Proof/WellFormed.lean ====
section
/-! DEFINITION. Well-formedness: of an instruction, and of a list of parameters. -/

namespace Sys2Proof

/-- Every operand of the four operations fills its field exactly (8 and 80 bits are the types' own widths), and
there are no reserved, hint or illegal encodings (R72, R87): every term of `Instr` is well-formed. A payload that
is rejected (R86) is a well-formed operand with a status of its own. -/
def Instr.wf : Instr → Bool
  | .reset => true
  | .nop => true
  | .setColor _ _ => true
  | .setPower _ _ => true

abbrev Instr.WellFormed (i : Instr) : Prop := i.wf = true

/-- Why a list of parameters is no configuration of the block. -/
inductive ParamsProblem where
  /-- `PIXEL_COUNT = 0` (R9, U2). -/
  | noPixel
  /-- `QUEUE_DEPTH = 0` (R10, U2). -/
  | noQueueSlot
  /-- `RESOLUTION_HZ < 1250000`: some tick count would be 0 (R123, U2). -/
  | rateTooLow
  /-- `MIN_LEN = 0`: a payload of length 0 fails the length check in every reading (R11, D9). -/
  | zeroLengthAllowed
  /-- `MIN_LEN > MAX_LEN` (R11). -/
  | emptyLengthRange
  /-- `MAX_LEN` above the ten bytes the port carries (R70). -/
  | longerThanPort
  deriving DecidableEq, Repr

/-- The first check a list of parameters fails, if any. -/
def Params.problem (p : Params) : Option ParamsProblem :=
  if p.pixelCount < 1 then some .noPixel
  else if p.queueDepth < 1 then some .noQueueSlot
  else if p.resolutionHz < minResolutionHz then some .rateTooLow
  else if p.minLen < 1 then some .zeroLengthAllowed
  else if p.maxLen < p.minLen then some .emptyLengthRange
  else if portBytes < p.maxLen then some .longerThanPort
  else none

/-- The checks refuse exactly the invalid lists. -/
theorem Params.problem_eq_none_iff (p : Params) : p.problem = none ↔ p.Valid := by
  unfold Params.problem Params.Valid
  constructor
  · intro h
    repeat' (split at h; · cases h)
    omega
  · rintro ⟨h₁, h₂, h₃, h₄, h₅, h₆⟩
    rw [if_neg (by omega), if_neg (by omega), if_neg (by omega), if_neg (by omega), if_neg (by omega),
      if_neg (by omega)]

/-- A list of parameters becomes a configuration, or is refused by name ("the spec gives such a configuration no
meaning and a model must refuse it", R123). -/
def Config.ofParams (p : Params) : Except ParamsProblem Config :=
  match h : p.problem with
  | some e => .error e
  | none => .ok ⟨p, (Params.problem_eq_none_iff p).1 h⟩

end Sys2Proof
end

