-- ==== Sys2Proof/Decode.lean ====
section
/-! DEFINITION. The input vector and the operation it selects (R71 to R73), and the encoder beside it. -/

namespace Sys2Proof

/-! ### The fields of the input vector (R71) -/

/-- Bit 90. -/
def rstOf (v : InputVec) : Bool := v.getLsbD 90

/-- Bit 89. -/
def cmdValidOf (v : InputVec) : Bool := v.getLsbD 89

/-- Bit 88: 0 = characteristic A (colour), 1 = B (power) (R51). -/
def cmdCharOf (v : InputVec) : Bool := v.getLsbD 88

/-- Bits 87:80. -/
def cmdLenOf (v : InputVec) : LenField := v.extractLsb' 80 8

/-- Bits 79:0. -/
def cmdDataOf (v : InputVec) : DataField := v.extractLsb' 0 80

/-- The 91-bit word `{rst, cmd_valid, cmd_char, cmd_len, cmd_data}` (R71). -/
def packInput (rst valid char : Bool) (len : LenField) (data : DataField) : InputVec :=
  BitVec.ofBool rst ++ (BitVec.ofBool valid ++ (BitVec.ofBool char ++ (len ++ data)))

/-! ### Selection (R72) -/

/-- The operation an input vector selects: total, with no illegal value (R72). The ignored bits (R73) do not reach
the operation. -/
def decode (v : InputVec) : Instr :=
  if rstOf v then .reset
  else if cmdValidOf v then
    if cmdCharOf v then .setPower (cmdLenOf v) (cmdDataOf v)
    else .setColor (cmdLenOf v) (cmdDataOf v)
  else .nop

/-- The input vector of an operation, every ignored bit 0 (R72, R88). -/
def encode : Instr → InputVec
  | .reset => packInput true false false 0 0
  | .nop => packInput false false false 0 0
  | .setColor len data => packInput false true false len data
  | .setPower len data => packInput false true true len data

/-! ### The operation map as masks and matches (R72, spec/opcode_table.json) -/

/-- One row of the operation map: `I` selects the operation when `I AND mask = match`. -/
structure OpcodeRow where
  mnemonic : String
  mask : InputVec
  pattern : InputVec
  deriving DecidableEq, Repr

def OpcodeRow.selects (row : OpcodeRow) (v : InputVec) : Bool := v &&& row.mask == row.pattern

def resetRow : OpcodeRow := ⟨"RESET", 0x40000000000000000000000, 0x40000000000000000000000⟩
def nopRow : OpcodeRow := ⟨"NOP", 0x60000000000000000000000, 0x00000000000000000000000⟩
def setColorRow : OpcodeRow := ⟨"SET_COLOR", 0x70000000000000000000000, 0x20000000000000000000000⟩
def setPowerRow : OpcodeRow := ⟨"SET_POWER", 0x70000000000000000000000, 0x30000000000000000000000⟩

def opcodeTable : List OpcodeRow := [resetRow, nopRow, setColorRow, setPowerRow]

/-- The table row of an operation. -/
def rowOf : Instr → OpcodeRow
  | .reset => resetRow
  | .nop => nopRow
  | .setColor _ _ => setColorRow
  | .setPower _ _ => setPowerRow

/-! ### The input vector as bytes

The ports are separate wires (R70) and the spec stores no input vector in bytes. The host's interface asks for whole
bytes, so the 91 bits are laid out in 12, the first byte holding bits 7:0; the five bits above bit 90 are padding
and must be 0. DESIGN CHOICE, log entry 6 (safe). -/

/-- Why a list of bytes is no input vector. -/
inductive WordProblem where
  /-- Fewer than 12 bytes. -/
  | tooFewBytes
  /-- A bit above bit 90 is 1. -/
  | paddingSet
  deriving DecidableEq, Repr

def inputBytes : Nat := 12

/-- The number that a list of bytes holds, its first byte the least significant. -/
def natOfBytes : List Byte → Nat
  | [] => 0
  | b :: bs => b.toNat + 256 * natOfBytes bs

/-- `n` bytes of a number, the least significant first. -/
def bytesOfNat : Nat → Nat → List Byte
  | 0, _ => []
  | n + 1, w => BitVec.ofNat 8 w :: bytesOfNat n (w / 256)

/-- Decode the next 12 bytes; the rest of the list is handed back. -/
def decodeBytes (bytes : List Byte) : Except WordProblem (Instr × List Byte) :=
  if bytes.length < inputBytes then .error .tooFewBytes
  else if natOfBytes (bytes.take inputBytes) < 2 ^ 91 then
    .ok (decode (BitVec.ofNat 91 (natOfBytes (bytes.take inputBytes))), bytes.drop inputBytes)
  else .error .paddingSet

/-- The 12 bytes of an operation's input vector. -/
def encodeBytes (i : Instr) : List Byte := bytesOfNat inputBytes (encode i).toNat

/-- The operation the decoder reads from a table word of `nbits` bits (bit 0 the least significant, R71). -/
def decodeTableWord (nbits w : Nat) : Option Instr :=
  match decodeBytes (bytesOfNat inputBytes (w % 2 ^ nbits)) with
  | .ok (i, _) => some i
  | .error _ => none

end Sys2Proof
end

