-- ==== Sys2Proof/Machine/Encoder.lean ====
section
/-! DEFINITION. PulseSpec, the frame builder and the Waveform Encoder (41_waveform_encoder.md): pure functions. -/

namespace Sys2Proof.Machine

/-! ### PulseSpec (R120 to R124) -/

/-- `round(seconds * RESOLUTION_HZ)` for a duration of `units` times 0.05 µs, a half rounded up (R121, R122): the
floor of the half added to the exact product. -/
def ticks (units f : Nat) : Nat := (10000000 + units * f) / 20000000

/-- The four tick counts (R30, R120). -/
structure PulseSpec where
  t0h : Nat
  t0l : Nat
  t1h : Nat
  t1l : Nat
  deriving DecidableEq, Repr

/-- All four counts from the one rate (R121, R124): 0.4, 0.85, 0.8 and 0.45 µs. -/
def pulseSpecAt (f : Nat) : PulseSpec := ⟨ticks 8 f, ticks 17 f, ticks 16 f, ticks 9 f⟩

/-- The hardwired PulseSpec of a block (R30). -/
def pulseSpec (c : Config) : PulseSpec := pulseSpecAt c.resolutionHz

/-- `TH(b)`: high ticks of the symbol of bit `b` (R146). -/
def highTicks (ps : PulseSpec) (b : Bool) : Nat := if b then ps.t1h else ps.t0h

/-- `TL(b)`: low ticks of the symbol of bit `b` (R146). -/
def lowTicks (ps : PulseSpec) (b : Bool) : Nat := if b then ps.t1l else ps.t0l

/-- `Sym(b)` (R120). -/
def symbol (ps : PulseSpec) (b : Bool) : PulsePair := (highTicks ps b, lowTicks ps b)

/-- The length of one part of the symbol of bit `b`: the high part while `ph`, else the low part (R146). -/
def partTicks (ps : PulseSpec) (b ph : Bool) : Nat := if ph then highTicks ps b else lowTicks ps b

/-! ### The frame builder (R125) -/

/-- An LedFrame: its bytes in wire order (R80). -/
abbrev Frame := List Byte

/-- One pixel record in wire order: green, red, blue (R79). -/
def pixelRecord (col : Color) : List Byte := [col.g, col.r, col.b]

/-- `Frame(c)`: the colour broadcast to every pixel (R125). -/
def frameOf (c : Config) (col : Color) : Frame := (List.replicate c.pixelCount (pixelRecord col)).flatten

/-! ### Encode and Wave (R127 to R131) -/

/-- The bits of a byte in the order they are sent, bit 7 first (R54, R127). -/
def bitsOfByte (b : Byte) : List Bool :=
  [b.getLsbD 7, b.getLsbD 6, b.getLsbD 5, b.getLsbD 4, b.getLsbD 3, b.getLsbD 2, b.getLsbD 1, b.getLsbD 0]

/-- `Encode(frame, pulseSpec)`: one pulse pair per bit, bytes in order, bit 7 first, nothing added (R127, R128). -/
def encodeFrame (ps : PulseSpec) (f : Frame) : List PulsePair := (f.flatMap bitsOfByte).map (symbol ps)

/-- `[1]^h ++ [0]^l`: the ticks of one pulse pair (R129). -/
def pulseWave (p : PulsePair) : Waveform := List.replicate p.1 true ++ List.replicate p.2 false

/-- `Wave(frame)`: the level of the wire tick by tick while the frame is played (R129). -/
def wave (ps : PulseSpec) (f : Frame) : Waveform := (encodeFrame ps f).flatMap pulseWave

/-- `Dur(frame)`: the length of `Wave(frame)`, the sum of `h + l` over the pulse pairs (R129). -/
def duration (ps : PulseSpec) (f : Frame) : Nat := ((encodeFrame ps f).map fun p => p.1 + p.2).sum

end Sys2Proof.Machine
end

