-- ==== Sys2Proof/Machine/Parameters.lean ====
section
/-! DEFINITION. The parameters of the machine that `exec` and `step` run: the values the spec gives, and the free
constants of Config where it leaves a parameter OPEN. -/

namespace Sys2Proof.Machine

/-- PIXEL_COUNT = 52 (R9), QUEUE_DEPTH = 4 (R10), MIN_LEN = 1 and MAX_LEN = 10 (R11); RESOLUTION_HZ (R12),
DEFAULT_COLOR (R13) and RESET_TICKS (R14) are OPEN: uninterpreted constants. Log entries 2, 3, 4 and 11. -/
def params : Config where
  pixelCount := 52
  queueDepth := 4
  minLen := 1
  maxLen := 10
  resolutionHz := minResolutionHz + Config.theRateAboveMinimum
  defaultColor := Config.theDefaultColor
  resetTicks := Config.theResetTicks
  valid := ⟨by decide, by decide, Nat.le_add_right _ _, by decide, by decide, by decide⟩

end Sys2Proof.Machine
end

