-- ==== Sys2Proof/Machine/State.lean ====
section
/-! DEFINITION. The state of the block (10_state.md), its reset value, and the reasons a step can stop. -/

namespace Sys2Proof.Machine

/-- The status of a command (R84, R190). Its 2-bit code is `Machine.statusCode`. -/
inductive Status where
  /-- Code 0: decoded, and the frame, if one was needed, is in the queue (R195). -/
  | ok
  /-- Code 1: `cmd_len` outside the bounds of the characteristic (R191). -/
  | invalidLength
  /-- Code 2: a colour payload with fewer than three integers (R192). -/
  | malformedPayload
  /-- Code 3: decoded, but the queue was full and the frame was dropped (R194). -/
  | busy
  deriving DecidableEq, Repr

/-- The serializer position without `act` (R25): what the block has in the place of a program counter. -/
structure Position where
  /-- `byte_idx`: index of the frame byte being played. -/
  byteIdx : Nat
  /-- `bit_idx`, 3 bits: index of the bit being played inside that byte. -/
  bitIdx : Fin 8
  /-- `ph`: true in the high part of the symbol, false in the low part. -/
  ph : Bool
  /-- `cnt`: ticks already spent in the current part, not counting the current tick. -/
  cnt : Nat
  deriving DecidableEq, Repr

/-- `(0, 7, 1, 0)`: the first tick of a frame, and the position of an idle serializer (R26, R148). -/
def Position.start : Position := ⟨0, 7, true, 0⟩

/-- The state. The first eleven elements (counting the four of `pos`) are the spec's `S` (R20); `inputs` is the
model's own field. -/
structure State where
  /-- `power_on`: the level of the power control line (R22). -/
  powerOn : Bool
  /-- `last_color`: the last applied ColorCommand, domain order (R21). -/
  lastColor : Color
  /-- `q`: the outstanding frames, oldest first (R23). -/
  q : List Frame
  /-- `act`: true while the frame at the head of `q` is being played (R25). -/
  act : Bool
  /-- `byte_idx`, `bit_idx`, `ph`, `cnt` (R25). -/
  pos : Position
  /-- `tx_done`: the completion flag (R27). -/
  txDone : Bool
  /-- `rsp_valid`: true during the tick after a command (R28). -/
  rspValid : Bool
  /-- `rsp_status`: the status of the most recent command (R28). -/
  rspStatus : Status
  /-- The input vectors the host will present, the next one first: the host of R8, not a register of the block.
  Log entry 1. -/
  inputs : List InputVec
  deriving DecidableEq, Repr

/-- The reasons the machine could stop with a fault: none. "A model needs no fault state for it" (R193); every
command ends with a status and the block goes on (R203). Safe: no step of the model ever ends so. -/
inductive Fault where
  deriving DecidableEq, Repr

/-- The reasons a step is refused. -/
inductive Refusal where
  /-- Raised by `exec`'s arm of an instruction that has no meaning yet (none is left). Safe. -/
  | notModelled (mnemonic : String)
  /-- Raised by the serializer phase when `act = 1` and the queue is empty: the pseudocode of R147 would read
  `QHead` of an empty queue, to which the spec gives no meaning (U10: refuse). Safe; not reachable from reset. -/
  | noFrameInFlight
  /-- Raised by the serializer phase when `act = 1` and `byte_idx` lies past the end of the head frame: the
  pseudocode of R147 would read a byte that is not there (U10: refuse). Safe; not reachable from reset. -/
  | byteIndexPastFrame
  deriving DecidableEq, Repr

/-- The three outcomes of a step of this machine. -/
abbrev Result := Host.Outcome State Fault Refusal

/-- `RESET_STATE` of a configuration (R33), with no input listed. -/
def State.resetOf (c : Config) : State where
  powerOn := true
  lastColor := c.defaultColor
  q := [frameOf c c.defaultColor]
  act := false
  pos := Position.start
  txDone := false
  rspValid := false
  rspStatus := .ok
  inputs := []

/-- The machine right after reset (R33, R222). -/
def State.reset : State := State.resetOf params

end Sys2Proof.Machine
end

