-- ==== Sys2Proof/Machine/Flags.lean ====
section
/-! DEFINITION. The status elements (R32): the status codes, the response registers, the completion flag, and the
outputs, which are functions of the state alone (R155). -/

namespace Sys2Proof.Machine

/-- The 2-bit code of a status (R84). -/
def statusCode : Status → BitVec 2
  | .ok => 0
  | .invalidLength => 1
  | .malformedPayload => 2
  | .busy => 3

/-- The end of a command's phase: `rsp_valid <- 1`, `rsp_status <- status` (R173, R181, R196). This is all that a
status other than `OK` "enters": nothing is saved, no mode changes, control goes nowhere (R196, R203). -/
def respond (st : Status) (s : State) : State := { s with rspValid := true, rspStatus := st }

/-- The command phase of a tick without a command: `rsp_valid <- 0`, `rsp_status` kept (R172, R181). -/
def noResponse (s : State) : State := { s with rspValid := false }

/-- The completion flag for the next tick (R27, R154). -/
def setTxDone (b : Bool) (s : State) : State := { s with txDone := b }

/-- The output ports (R70). -/
structure Outputs where
  dout : Level
  powerOn : Level
  txDone : Bool
  rspValid : Bool
  rspStatus : BitVec 2
  deriving DecidableEq, Repr

/-- `dout`: high exactly in the high part of a symbol of a frame being played; low when idle (R83, R155). -/
def dout (s : State) : Level := s.act && s.pos.ph

/-- `Out(S)` (R155). -/
def outputs (s : State) : Outputs := ⟨dout s, s.powerOn, s.txDone, s.rspValid, statusCode s.rspStatus⟩

end Sys2Proof.Machine
end

