-- ==== Sys2Proof/Machine/Operands.lean ====
section
/-! DEFINITION. The operands of the two commands: the Command Decoder (40_command_decoder.md), pure functions. -/

namespace Sys2Proof.Machine

/-- Payload byte `i`: bits `[8i+7 : 8i]` of `cmd_data` (R56, R100). -/
def payloadByte (data : DataField) (i : Nat) : Byte := data.extractLsb' (8 * i) 8

/-- `FillBuffer(data, len)`: the first `len` payload bytes, zero above, `PBUF_BYTES` in all (R102). -/
def fillBuffer (c : Config) (data : DataField) (len : Nat) : List Byte :=
  (List.range c.pbufBytes).map fun i => if i < len then payloadByte data i else 0

/-! The scan walks the parse buffer: a position `p` of the spec is the list of the bytes from `p` on. -/

def minusSign : Byte := 0x2D
def commaSign : Byte := 0x2C

/-- `IsDigit(c)` (R103). -/
def isDigit (b : Byte) : Bool := 0x30 ≤ b.toNat && b.toNat ≤ 0x39

/-- The value of a digit (R103). -/
def digitValue (b : Byte) : Nat := b.toNat - 0x30

/-- The loop of `ScanInt`: every digit that follows, the value in `v` (R104). -/
def scanDigits (v : Nat) : List Byte → Nat × List Byte
  | [] => (v, [])
  | b :: bs => if isDigit b then scanDigits (v * 10 + digitValue b) bs else (v, b :: bs)

/-- `ScanInt` after its sign: at least one digit (R104). -/
def scanUnsigned : List Byte → Option (Nat × List Byte)
  | [] => none
  | b :: bs => if isDigit b then some (scanDigits 0 (b :: bs)) else none

/-- `ScanInt` (R104): at most one minus sign, directly before the first digit; unbounded integers (R107). -/
def scanInt : List Byte → Option (Int × List Byte)
  | [] => none
  | b :: bs =>
    if b = minusSign then (scanUnsigned bs).map fun r => (-(r.1 : Int), r.2)
    else (scanUnsigned (b :: bs)).map fun r => ((r.1 : Int), r.2)

/-- One comma, and what follows it (R105). -/
def scanComma : List Byte → Option (List Byte)
  | [] => none
  | b :: bs => if b = commaSign then some bs else none

/-- `ScanTriplet` (R105): what stands after the third integer is not looked at. -/
def scanTriplet (pbuf : List Byte) : Option (Int × Int × Int) :=
  match scanInt pbuf with
  | none => none
  | some (v0, p0) =>
    match (scanComma p0).bind scanInt with
    | none => none
    | some (v1, p1) =>
      match (scanComma p1).bind scanInt with
      | none => none
      | some (v2, _) => some (v0, v1, v2)

/-- `clamp(v)` (R106). -/
def clamp (v : Int) : Byte := if v < 0 then 0 else if 255 < v then 255 else BitVec.ofNat 8 v.toNat

/-- The two failures of the decoder (R100, R110). -/
inductive DecodeError where
  | invalidLength
  | malformedPayload
  deriving DecidableEq, Repr

/-- The status a decoder failure is reported with (R174, R175). -/
def decodeStatus : DecodeError → Status
  | .invalidLength => .invalidLength
  | .malformedPayload => .malformedPayload

/-- `DecodeColor(data, len)` (R100): the length check first (R101), then the scan (R105), then the clamp (R106). -/
def decodeColor (c : Config) (data : DataField) (len : LenField) : Except DecodeError Color :=
  if len.toNat < c.minLen ∨ c.maxLen < len.toNat then .error .invalidLength
  else
    match scanTriplet (fillBuffer c data len.toNat) with
    | none => .error .malformedPayload
    | some (v0, v1, v2) => .ok ⟨clamp v0, clamp v1, clamp v2⟩

/-- `DecodePower(data, len)` (R110): `'1'` is on, every other byte is off. -/
def decodePower (data : DataField) (len : LenField) : Except DecodeError Bool :=
  if len.toNat ≠ powerLen then .error .invalidLength
  else .ok (payloadByte data 0 == 0x31)

end Sys2Proof.Machine
end

