-- ==== Sys2Proof/Machine/Ops.lean ====
section
/-! DEFINITION. The named operations over the state: the queue, the serializer phase, the host's input list. -/

namespace Sys2Proof.Machine

/-! ### Plain writes -/

/-- `power_on <- b` (R22, R175). -/
def setPowerLine (b : Bool) (s : State) : State := { s with powerOn := b }

/-- `last_color <- c` (R21, R174). -/
def setLastColor (col : Color) (s : State) : State := { s with lastColor := col }

/-- `act` and the position written together (R147). -/
def setSerializer (act : Bool) (p : Position) (s : State) : State := { s with act := act, pos := p }

/-! ### The queue (R140 to R145) -/

/-- `QPush`: append at the tail (R143). -/
def queuePush (f : Frame) (s : State) : State := { s with q := s.q ++ [f] }

/-- `QPop`: remove the head; the others keep their order (R144). -/
def queuePop (s : State) : State := { s with q := s.q.tail }

/-- `Submit(S, frame)`: the state with the frame pushed, or `none` when it is `Busy` and nothing changes; the bound
counts the frame in flight (R141, R143). -/
def submit (c : Config) (f : Frame) (s : State) : Option State :=
  if s.q.length < c.queueDepth then some (queuePush f s) else none

/-! ### The serializer (R146 to R149) -/

/-- One tick of the walk over a frame, given the length of the current part: the next position, or `none` after the
last low tick of bit 0 of the last byte (R147). -/
def advance (frameBytes dur : Nat) (p : Position) : Option Position :=
  if p.cnt + 1 < dur then some { p with cnt := p.cnt + 1 }
  else if p.ph then some { p with ph := false, cnt := 0 }
  else if 0 < p.bitIdx then some { p with bitIdx := p.bitIdx - 1, ph := true, cnt := 0 }
  else if p.byteIdx < frameBytes - 1 then some ⟨p.byteIdx + 1, 7, true, 0⟩
  else none

/-- The bit being played: bit `bit_idx` of byte `byte_idx` of the head frame; `none` when there is no such byte
(R146). -/
def currentBit (s : State) : Option Bool :=
  match s.q with
  | [] => none
  | f :: _ => f[s.pos.byteIdx]?.map fun b => b.getLsbD s.pos.bitIdx

/-- Start of a frame: `act <- 1`, the position at the first high tick (R148). -/
def startFrame (s : State) : State := setSerializer true Position.start (setTxDone false s)

/-- End of a frame: the head popped, `tx_done` set, the position back at the start; `act` stays 1 exactly when
another frame is waiting (R149). -/
def endFrame (s : State) : State :=
  setSerializer (!(queuePop s).q.isEmpty) Position.start (setTxDone true (queuePop s))

/-- A tick inside a frame, bit `b` on the wire (R147). -/
def playTick (c : Config) (b : Bool) (s : State) : State :=
  match advance c.frameBytes (partTicks (pulseSpec c) b s.pos.ph) s.pos with
  | some p => setSerializer true p (setTxDone false s)
  | none => endFrame s

/-- `SerPhase(S)` (R147). Where the pseudocode reads a frame byte that is not there, the step is refused (U10, log
entry 5). -/
def serPhase (c : Config) (s : State) : Result :=
  match s.act, s.q with
  | false, [] => .next (setTxDone false s)
  | false, _ :: _ => .next (startFrame s)
  | true, [] => .refused .noFrameInFlight
  | true, _ :: _ =>
    match currentBit s with
    | some b => .next (playTick c b s)
    | none => .refused .byteIndexPastFrame

/-! ### The host's input list (R8, R71; log entry 1) -/

/-- The input vector of a tick in which the host presents nothing: the line `NOP` (R88). -/
def silentInput : InputVec := 0

/-- The input vector sampled at the edge that ends this tick. -/
def nextInput (s : State) : InputVec := s.inputs.headD silentInput

/-- The input list after that edge. -/
def popInput (s : State) : State := { s with inputs := s.inputs.tail }

/-- The operation of this tick (R3, R72). -/
def nextInstr (s : State) : Instr := decode (nextInput s)

end Sys2Proof.Machine
end

