-- ==== Sys2Proof/Machine/Router.lean ====
section
/-! DEFINITION. The Command Router and the four operations (43_command_router.md). Each operation is written over
the configuration record (`…On c`), and the machine's own meaning of it is that operation at `params`. -/

namespace Sys2Proof.Machine

/-! ### The two command phases -/

/-- `DoColor(S, data, len)` (R174): decode, submit, and only then cache the colour (R179). -/
def doColor (c : Config) (len : LenField) (data : DataField) (s : State) : State × Status :=
  match decodeColor c data len with
  | .error e => (s, decodeStatus e)
  | .ok col =>
    match submit c (frameOf c col) s with
    | none => (s, .busy)
    | some s' => (setLastColor col s', .ok)

/-- `DoPower(S, data, len)` (R175): the line is driven by every decoded command, also a `Busy` one. -/
def doPower (c : Config) (len : LenField) (data : DataField) (s : State) : State × Status :=
  match decodePower data len with
  | .error e => (s, decodeStatus e)
  | .ok false => (setPowerLine false s, .ok)
  | .ok true =>
    match submit c (frameOf c s.lastColor) (setPowerLine true s) with
    | none => (setPowerLine true s, .busy)
    | some s' => (s', .ok)

/-- The end of the command phase of a command (R173). -/
def answered (r : State × Status) : State := respond r.2 r.1

/-! ### The operations of a configuration -/

/-- `RESET` (R171): every element becomes its reset value, the serializer phase does not run; what the host will
present next is not the block's to change. -/
def resetOn (c : Config) (s : State) : Result := .next { State.resetOf c with inputs := s.inputs }

/-- `NOP` (R172). -/
def nopOn (c : Config) (s : State) : Result := serPhase c (noResponse s)

/-- `SET_COLOR` (R173, R174), then the serializer phase (R170). -/
def setColorOn (c : Config) (len : LenField) (data : DataField) (s : State) : Result :=
  serPhase c (answered (doColor c len data s))

/-- `SET_POWER` (R173, R175), then the serializer phase (R170). -/
def setPowerOn (c : Config) (len : LenField) (data : DataField) (s : State) : Result :=
  serPhase c (answered (doPower c len data s))

/-! ### The meanings `exec` calls -/

/-- `RESET` (R171). -/
def execReset (s : State) : Result := resetOn params s

/-- `NOP` (R172). -/
def execNop (s : State) : Result := nopOn params s

/-- `SET_COLOR` (R174). -/
def execSetColor (len : LenField) (data : DataField) (s : State) : Result := setColorOn params len data s

/-- `SET_POWER` (R175). -/
def execSetPower (len : LenField) (data : DataField) (s : State) : Result := setPowerOn params len data s

end Sys2Proof.Machine
end

