-- ==== Sys2Proof/Machine/Dispatch.lean ====
section
/-! DEFINITION. One arm per operation: the meaning of the operation that a tick executes (R3, R170). -/

namespace Sys2Proof.Machine

def exec (i : Instr) (s : State) : Host.Outcome State Fault Refusal :=
  match i with
  | .reset => Sys2Proof.Machine.execReset s
  | .nop => Sys2Proof.Machine.execNop s
  | .setColor len data => Sys2Proof.Machine.execSetColor len data s
  | .setPower len data => Sys2Proof.Machine.execSetPower len data s

end Sys2Proof.Machine
end

