-- ==== Sys2Proof/Machine/Step.lean ====
section
/-! DEFINITION. One tick: `S_{t+1} = Step(S_t, I_t)` (R8, R170), with `I_t` taken from the host's input list. -/

namespace Sys2Proof.Machine

/-- One tick. The step takes the next input vector off the list, and executes the operation it selects. -/
def step (s : State) : Host.Outcome State Fault Refusal := exec (nextInstr s) (popInput s)

/-- `s` with the input vector whose bits are `w` presented at the very next tick (bits numbered as in R71; the
bits above `nbits` zero), before whatever else the host will present. Log entry 13. -/
def State.withFetchWord (s : State) (nbits w : Nat) : State :=
  { s with inputs := BitVec.ofNat 91 (w % 2 ^ nbits) :: s.inputs }

end Sys2Proof.Machine
end

