-- ==== Sys2Proof/Machine/HostPort.lean ====
section
/-! DEFINITION. The host's side of the command port: how a write event becomes an input vector (R74), and the trace
notation in the place of assembler syntax (R88, R89). -/

namespace Sys2Proof.Machine

/-- The field `cmd_data` that carries the first ten bytes of a value, zero above (R56, R74, R88). -/
def dataOfBytes (bytes : List Byte) : DataField := BitVec.ofNat 80 (natOfBytes (bytes.take portBytes))

/-- The field `cmd_len` of a value of `n` bytes: saturated at 255 (R74). -/
def lenOfCount (n : Nat) : LenField := BitVec.ofNat 8 (min n 255)

/-- A write of `bytes` to characteristic A (`char = false`) or B (`char = true`), presented in one tick (R74). -/
def writeEvent (char : Bool) (bytes : List Byte) : InputVec :=
  packInput false true char (lenOfCount bytes.length) (dataOfBytes bytes)

/-- The line kinds of the trace notation (R88) and the pseudo-lines (R89). -/
inductive TraceLine where
  /-- `RESET`. -/
  | reset
  /-- `NOP`. -/
  | nop
  /-- `COLOR "text"`. -/
  | color (text : List Byte)
  /-- `COLOR "text" LEN n`. -/
  | colorLen (text : List Byte) (n : LenField)
  /-- `POWER "text"`. -/
  | power (text : List Byte)
  /-- `POWER "text" LEN n`, as the vectors W9 and W10 write it. -/
  | powerLen (text : List Byte) (n : LenField)
  /-- `IDLE n`: `n` lines `NOP`. -/
  | idle (n : Nat)
  /-- `POWER ON`. -/
  | powerOn
  /-- `POWER OFF`. -/
  | powerOff
  /-- `UNTIL t`: `NOP` lines up to tick `t`. -/
  | untilTick (t : Nat)
  deriving DecidableEq, Repr

/-- The input vectors of a line whose first tick is `now` (R88, R89). -/
def lineInputs (now : Nat) : TraceLine → List InputVec
  | .reset => [packInput true false false 0 0]
  | .nop => [silentInput]
  | .color text => [writeEvent false text]
  | .colorLen text n => [packInput false true false n (dataOfBytes text)]
  | .power text => [writeEvent true text]
  | .powerLen text n => [packInput false true true n (dataOfBytes text)]
  | .idle n => List.replicate n silentInput
  | .powerOn => [writeEvent true [0x31]]
  | .powerOff => [writeEvent true [0x30]]
  | .untilTick t => List.replicate (t - now) silentInput

/-- The input vectors of a trace that begins at tick `now`. -/
def traceInputs (now : Nat) : List TraceLine → List InputVec
  | [] => []
  | l :: ls => lineInputs now l ++ traceInputs (now + (lineInputs now l).length) ls

/-- The ASCII bytes of a text (R16, R88). -/
def textBytes (cs : List Char) : List Byte := cs.map fun ch => BitVec.ofNat 8 ch.toNat

end Sys2Proof.Machine
end

