-- ==== Sys2Proof/Machine/Configured.lean ====
section
/-! DEFINITION. The same machine at any configuration ("every rule of this spec is written for any such value", R9):
what the spec's small test configurations run on. `step` is `stepOn params` (Sys2Proof/Laws/Step.lean). -/

namespace Sys2Proof.Machine

/-- The operation `i` at configuration `c`. -/
def execOn (c : Config) (i : Instr) (s : State) : Result :=
  match i with
  | .reset => resetOn c s
  | .nop => nopOn c s
  | .setColor len data => setColorOn c len data s
  | .setPower len data => setPowerOn c len data s

/-- One tick at configuration `c` (R170). -/
def stepOn (c : Config) (s : State) : Result := execOn c (nextInstr s) (popInput s)

/-- The block built at configuration `c`. -/
def coreOn (c : Config) : Host.Core where
  State := State
  Fault := Fault
  Refusal := Refusal
  step := stepOn c
  reset := State.resetOf c

end Sys2Proof.Machine
end

