-- ==== Sys2Proof/Safety.lean ====
section
/-! DEFINITION. What counts as a safe run, and the terms claims about the block are stated in: the invariants of
R24, R26 and R152, the colour grammar of R75, the host's duty of R230. -/

namespace Sys2Proof.Safety

open Sys2Proof.Machine

/-! ### The invariants -/

/-- The serializer finds the byte it is to play: what the serializer phase needs of a state (R147, U10). -/
abbrev Playable (s : State) : Prop := s.act = true → (currentBit s).isSome = true

/-- The state is `RESET_STATE`, whatever the host will present next. -/
abbrev IsResetState (c : Config) (s : State) : Prop := s = { State.resetOf c with inputs := s.inputs }

/-- The invariants of R24, R26 and R152, and where the position stands when the completion flag is up (R149). -/
structure Inv (c : Config) (s : State) : Prop where
  /-- R24 (a). -/
  queueBound : s.q.length ≤ c.queueDepth
  /-- R23, R24 (b): every frame is the broadcast of one colour, so its length is `FRAME_BYTES`. -/
  framesBroadcast : ∀ f ∈ s.q, ∃ col, f = frameOf c col
  /-- R24 (c). -/
  actHasFrame : s.act = true → s.q ≠ []
  /-- R24 (d): an idle serializer has an empty queue, but in `RESET_STATE`. -/
  idleEmpty : s.act = false → s.q = [] ∨ IsResetState c s
  /-- R26. -/
  idlePosition : s.act = false → s.pos = Position.start
  /-- R152. -/
  byteInFrame : s.pos.byteIdx < c.frameBytes
  /-- R152: `cnt < dur` while a frame is played. -/
  countInPart : ∀ b, s.act = true → currentBit s = some b → s.pos.cnt < partTicks (pulseSpec c) b s.pos.ph
  /-- R149, R153: when `tx_done` is 1 the serializer is idle or at the first tick of the next frame. -/
  doneAtStart : s.txDone = true → s.pos = Position.start

/-! ### Runs -/

/-- The input vector the host presents `k` ticks from now. -/
def inputAt (s : State) (k : Nat) : InputVec := s.inputs.getD k silentInput

/-- The host does not reset the block in the next `n` ticks. -/
abbrev NoResetFor (n : Nat) (s : State) : Prop := ∀ k < n, decode (inputAt s k) ≠ .reset

/-- The state after `n` ticks of the machine, if none of them stopped. -/
abbrev Reaches (n : Nat) (s t : State) : Prop := Host.Core.run Sys2Proof.core n s = .next t

/-- The serializer is at the first tick of the frame `f` (R153). -/
abbrev AtFirstTick (s : State) (f : Frame) : Prop :=
  s.act = true ∧ s.pos = Position.start ∧ s.q.head? = some f

/-- The serializer is at the last tick of the head frame: the last low tick of bit 0 of the last byte (R149). -/
abbrev AtLastTick (c : Config) (s : State) : Prop :=
  s.act = true ∧ s.pos.byteIdx = c.frameBytes - 1 ∧ s.pos.bitIdx = 0 ∧ s.pos.ph = false ∧
    ∃ b, currentBit s = some b ∧ lowTicks (pulseSpec c) b ≤ s.pos.cnt + 1

/-- The outputs during this tick and the `n - 1` ticks after it. -/
def observe : Nat → State → List Outputs
  | 0, _ => []
  | n + 1, s =>
    outputs s :: match step s with
      | .next t => observe n t
      | .fault _ => []
      | .refused _ => []

/-- At rest: nothing outstanding, nothing on the wire (R182). -/
abbrev AtRest (s : State) : Prop := s.q = [] ∧ s.act = false

/-! ### The colour payload (R75, R76) -/

/-- `integer = ["-"] 1*DIGIT`: its sign and its digits. -/
structure IntegerText where
  negative : Bool
  digits : List Byte
  deriving DecidableEq, Repr

abbrev IntegerText.Valid (n : IntegerText) : Prop := n.digits ≠ [] ∧ ∀ b ∈ n.digits, isDigit b = true

def IntegerText.bytes (n : IntegerText) : List Byte :=
  if n.negative then minusSign :: n.digits else n.digits

/-- Base ten, first digit most significant (R76). -/
def decimalValue (digits : List Byte) : Nat := digits.foldl (fun v b => v * 10 + digitValue b) 0

def IntegerText.value (n : IntegerText) : Int :=
  if n.negative then -(decimalValue n.digits : Int) else (decimalValue n.digits : Int)

/-- `payload = integer "," integer "," integer rest`, where `rest` does not go on with a digit, because the third
integer takes every digit that follows (R75). -/
abbrev MatchesGrammar (pbuf : List Byte) (n0 n1 n2 : IntegerText) (rest : List Byte) : Prop :=
  n0.Valid ∧ n1.Valid ∧ n2.Valid ∧
    pbuf = n0.bytes ++ commaSign :: (n1.bytes ++ commaSign :: (n2.bytes ++ rest)) ∧
    (∀ b, rest.head? = some b → isDigit b = false)

/-- How many digits the plain decimal form of a channel value takes (R109). -/
def decimalDigits (b : Byte) : Nat := if b.toNat < 10 then 1 else if b.toNat < 100 then 2 else 3

/-! ### Pushes -/

/-- The frames an operation pushes: one when it is decoded, needs a slot and finds one, else none (R174, R175). -/
def pushedFrames (c : Config) (i : Instr) (s : State) : List Frame :=
  match i with
  | .reset => []
  | .nop => []
  | .setColor len data =>
    match decodeColor c data len with
    | .ok col => if s.q.length < c.queueDepth then [frameOf c col] else []
    | .error _ => []
  | .setPower len data =>
    match decodePower data len with
    | .ok true => if s.q.length < c.queueDepth then [frameOf c s.lastColor] else []
    | .ok false => []
    | .error _ => []

/-- The frames pushed in the next `n` ticks of the machine, in order. -/
def pushedIn : Nat → State → List Frame
  | 0, _ => []
  | n + 1, s =>
    pushedFrames params (nextInstr s) s ++ match step s with
      | .next t => pushedIn n t
      | .fault _ => []
      | .refused _ => []

/-- How many of the next `n` ticks end a frame: the ticks after them with `tx_done` up (R154). -/
def completionsIn (n : Nat) (s : State) : Nat := ((observe (n + 1) s).drop 1).countP fun o => o.txDone

/-- The operation is a command whose payload the decoder rejects, in every state (R86, R196). -/
abbrev Rejected (c : Config) (i : Instr) : Prop :=
  (∃ len data e, i = .setColor len data ∧ decodeColor c data len = .error e) ∨
    (∃ len data e, i = .setPower len data ∧ decodePower data len = .error e)

/-! ### The host's duty (R230) -/

/-- Ticks passed since the last `tx_done`, seen from the state after a tick. -/
def sinceDone (quiet : Nat) (t : State) : Nat := if t.txDone then 0 else quiet + 1

/-- The duty at one tick: a frame is pushed only when nothing is outstanding and `RESET_TICKS` ticks have passed
since the last `tx_done` (R230). -/
abbrev DutyAt (c : Config) (quiet : Nat) (s : State) : Prop :=
  pushedFrames c (nextInstr s) s ≠ [] → s.q = [] ∧ c.resetTicks ≤ quiet

/-- The host keeps the duty for `n` ticks and does not reset the block in them (R230, R233); `quiet` ticks have
passed since the last `tx_done` when they begin. -/
def KeepsDuty (c : Config) : Nat → Nat → State → Prop
  | 0, _, _ => True
  | n + 1, quiet, s =>
    nextInstr s ≠ .reset ∧ DutyAt c quiet s ∧ ∀ t, stepOn c s = .next t → KeepsDuty c n (sinceDone quiet t) t

end Sys2Proof.Safety
end

