-- ==== Sys2Proof/Certificates/Slice0/Obligations.lean ====
section
/-! DEFINITION. The statements for the provers, in the order of the spec's files. Each docstring names the rule of
spec/ that it formalises, and D<n> where the spec marks a sentence it rests on as its own decision
(92_eei_decisions.md), or "the spec's inference" where it marks one `[derived]`. `params` holds the spec's values with
the OPEN parameters uninterpreted, so every statement holds for every valid rate and every default colour. -/

open Sys2Proof Sys2Proof.Machine Sys2Proof.Safety

/-! ### Reset and the shape of a tick -/

/-- Every element's reset value (R33, decision D20), and that a tick with `rst = 1` returns that state (the host's
remaining inputs are the model's own field, log entries 1 and 14). -/
def Obligations.ResetStateHasTheSpecifiedValues : Prop :=
  State.reset.powerOn = true ∧ State.reset.lastColor = params.defaultColor ∧
  State.reset.q = [frameOf params params.defaultColor] ∧ State.reset.act = false ∧
  State.reset.pos.byteIdx = 0 ∧ State.reset.pos.bitIdx = 7 ∧ State.reset.pos.ph = true ∧ State.reset.pos.cnt = 0 ∧
  State.reset.txDone = false ∧ State.reset.rspValid = false ∧ State.reset.rspStatus = .ok ∧ statusCode .ok = 0 ∧
  ∀ s : State, rstOf (nextInput s) = true → step s = .next { State.reset with inputs := s.inputs.tail }

/-- From any state, whatever the other input bits, all elements take their reset values and the serializer phase does
not run; it is idempotent; the first `NOP` after it starts the default frame (R171, decisions D2 and D20). The host's
list is the model's own (log entry 14). -/
def Obligations.ResetReplacesEveryElement : Prop :=
  (∀ v : InputVec, rstOf v = true → decode v = .reset) ∧
  ∀ s : State, ∃ t u : State,
    exec .reset s = .next t ∧ t = { State.reset with inputs := s.inputs } ∧ exec .reset t = .next t ∧
    exec .nop t = .next u ∧ u.act = true ∧ u.q = [frameOf params params.defaultColor] ∧
    u.pos = ⟨0, 7, true, 0⟩ ∧ dout u = true

/-- The step is `exec` of the operation that the next input vector selects (R8, R170, decisions D1 and D14). A tick
with no input listed is a `NOP` (log entry 1, the model's choice); the table's words run as the decoder reads them (log
entries 6 and 13). -/
def Obligations.StepRunsTheDecodedInput : Prop :=
  (∀ (s : State) (v : InputVec) (rest : List InputVec), s.inputs = v :: rest →
    step s = exec (decode v) { s with inputs := rest }) ∧
  (∀ s : State, s.inputs = [] → step s = exec .nop s) ∧
  (∀ (s : State) (nbits w : Nat) (i : Instr), decodeTableWord nbits w = some i →
    step (s.withFetchWord nbits w) = exec i s)

/-- The machine is the block of R170 built at `params`, and its interface is made of that step (the model's own
layout: log entries 2, 3, 4 and 11). -/
def Obligations.StepIsTheConfiguredStep : Prop :=
  (∀ s : State, step s = stepOn params s) ∧ State.reset = State.resetOf params ∧
  ∀ (n : Nat) (s : State), Host.Core.run Sys2Proof.core n s = Host.Core.run (coreOn params) n s

/-! ### Encoding (30_encoding.md) -/

/-- Words written out from the spec's encodings (R71, decision D25; 95_test_vectors.md section 3, vectors O2 to
O7). -/
def Obligations.WrittenOutWordsDecode : Prop :=
  decode 0x7FFFFFFFFFFFFFFFFFFFFFF = .reset ∧
  decode 0x1FFFFFFFFFFFFFFFFFFFFFF = .nop ∧
  decode 0x209003832312C302C353532 = .setColor 9 0x003832312C302C353532 ∧
  decode 0x20B35322C3535322C353532 = .setColor 11 0x35322C3535322C353532 ∧
  decode 0x30200000000000000003131 = .setPower 2 0x3131

/-- Encoding and decoding agree: for every well-formed operation with every operand, from the 91-bit word (R71, R72,
decisions D6 and D25) and from its 12 bytes with anything behind them (the model's layout, log entry 6). -/
def Obligations.DecodeOfEncodeIsTheInstruction : Prop :=
  ∀ i : Instr, i.WellFormed → decode (encode i) = i ∧
    ∀ rest : List Byte, decodeBytes (encodeBytes i ++ rest) = .ok (i, rest)

/-- Every input vector matches exactly one row of the operation map, the row of the operation it selects (R72,
decisions D2, D6 and D8). -/
def Obligations.EveryInputVectorSelectsExactlyOneRow : Prop :=
  ∀ v : InputVec, opcodeTable.filter (fun row => row.selects v) = [rowOf (decode v)]

/-- Two input vectors that differ only in ignored bits give the same next state (the spec's inference in R73: "A model
must give the same next state for two input vectors that differ only in ignored bits"). -/
def Obligations.IgnoredInputBitsDoNotMatter : Prop :=
  ∀ (s : State) (rest : List InputVec) (v w : InputVec),
    rstOf v = rstOf w →
    (rstOf v = false → cmdValidOf v = cmdValidOf w) →
    (rstOf v = false → cmdValidOf v = true → cmdCharOf v = cmdCharOf w ∧ cmdLenOf v = cmdLenOf w) →
    (rstOf v = false → cmdValidOf v = true → cmdCharOf v = false → 1 ≤ (cmdLenOf v).toNat →
      (cmdLenOf v).toNat ≤ 10 →
      ∀ k < (cmdLenOf v).toNat, payloadByte (cmdDataOf v) k = payloadByte (cmdDataOf w) k) →
    (rstOf v = false → cmdValidOf v = true → cmdCharOf v = true → (cmdLenOf v).toNat = 1 →
      payloadByte (cmdDataOf v) 0 = payloadByte (cmdDataOf w) 0) →
    step { s with inputs := v :: rest } = step { s with inputs := w :: rest }

/-- How a write event becomes an input vector: the saturated length, the first ten bytes in place; a longer value
loses nothing, since it is rejected whatever its bytes (R74, decision D7 and the spec's inference there). -/
def Obligations.WriteEventCarriesItsPayload : Prop :=
  ∀ bytes : List Byte,
    (∀ char : Bool, ∃ (len : LenField) (data : DataField),
      decode (writeEvent char bytes) = (if char then Instr.setPower len data else Instr.setColor len data) ∧
      len.toNat = min bytes.length 255 ∧
      (∀ k < min bytes.length 10, bytes[k]? = some (payloadByte data k))) ∧
    (10 < bytes.length → ∀ data : DataField,
      decodeColor params data (lenOfCount bytes.length) = .error .invalidLength)

/-! ### The Command Decoder (40_command_decoder.md) -/

/-- The parse buffer (R102; that its last byte is always 0 is the spec's inference there). -/
def Obligations.ParseBufferIsThePayloadPaddedWithZeros : Prop :=
  ∀ (data : DataField) (len : Nat), 1 ≤ len → len ≤ 10 →
    (fillBuffer params data len).length = 11 ∧
    (∀ k < len, (fillBuffer params data len)[k]? = some (payloadByte data k)) ∧
    (∀ k, len ≤ k → k ≤ 10 → (fillBuffer params data len)[k]? = some 0)

/-- R106: the clamp, and that each of the three scanned integers is clamped on its own, by position. -/
def Obligations.ClampBringsAnIntegerToTheNearestBound : Prop :=
  (∀ v : Int, (v < 0 → clamp v = 0) ∧ (255 < v → clamp v = 255) ∧
    (0 ≤ v → v ≤ 255 → ((clamp v).toNat : Int) = v)) ∧
  ∀ (data : DataField) (len : LenField) (v0 v1 v2 : Int), 1 ≤ len.toNat → len.toNat ≤ 10 →
    scanTriplet (fillBuffer params data len.toNat) = some (v0, v1, v2) →
    ∃ col, decodeColor params data len = .ok col ∧ col.r = clamp v0 ∧ col.g = clamp v1 ∧ col.b = clamp v2

/-- `DecodeColor` accepts exactly the payloads of legal length that match the grammar (R75, decision D10), and answers
the three integers (R76), each clamped on its own; the length is tested before the text (R100, R101). -/
def Obligations.DecodeColorAcceptsExactlyTheGrammar : Prop :=
  ∀ (data : DataField) (len : LenField),
    (decodeColor params data len = .error .invalidLength ↔ len.toNat < 1 ∨ 10 < len.toNat) ∧
    (decodeColor params data len = .error .malformedPayload ↔ 1 ≤ len.toNat ∧ len.toNat ≤ 10 ∧
      ¬ ∃ n0 n1 n2 rest, MatchesGrammar (fillBuffer params data len.toNat) n0 n1 n2 rest) ∧
    (∀ col : Color, decodeColor params data len = .ok col ↔ 1 ≤ len.toNat ∧ len.toNat ≤ 10 ∧
      ∃ n0 n1 n2 rest, MatchesGrammar (fillBuffer params data len.toNat) n0 n1 n2 rest ∧
        col = ⟨clamp n0.value, clamp n1.value, clamp n2.value⟩)

/-- The range of the integers of a successful scan (the spec's inference in R107: "-99999 <= v <= 999999"). -/
def Obligations.ScannedIntegersStayInRange : Prop :=
  ∀ (data : DataField) (len : Nat) (v0 v1 v2 : Int), 1 ≤ len → len ≤ 10 →
    scanTriplet (fillBuffer params data len) = some (v0, v1, v2) →
    ∀ v ∈ [v0, v1, v2], -99999 ≤ v ∧ v ≤ 999999

/-- A colour can be commanded exactly when its three decimal digit counts sum to at most 8 (the spec's inference in
R109). -/
def Obligations.CommandableColorsHaveAtMostEightDigits : Prop :=
  ∀ col : Color, (∃ (data : DataField) (len : LenField), decodeColor params data len = .ok col) ↔
    decimalDigits col.r + decimalDigits col.g + decimalDigits col.b ≤ 8

/-- R110, R78: `DecodePower`. -/
def Obligations.DecodePowerReadsOneByte : Prop :=
  ∀ (data : DataField) (len : LenField),
    (len.toNat ≠ 1 → decodePower data len = .error .invalidLength) ∧
    (len.toNat = 1 → payloadByte data 0 = 0x31 → decodePower data len = .ok true) ∧
    (len.toNat = 1 → payloadByte data 0 ≠ 0x31 → decodePower data len = .ok false)

/-! ### PulseSpec, frame and encoder (41_waveform_encoder.md) -/

/-- A tick count is the nearest integer to the nominal duration (R121), a half rounded up (R122, decision D4); the
four durations are 8, 17, 16 and 9 units of 1/20000000 s. -/
def Obligations.TickCountsRoundToNearestHalfUp : Prop :=
  (∀ units f : Nat, 20000000 * ticks units f ≤ units * f + 10000000 ∧
    units * f + 10000000 < 20000000 * (ticks units f + 1)) ∧
  (∀ f : Nat, (pulseSpecAt f).t0h = ticks 8 f ∧ (pulseSpecAt f).t0l = ticks 17 f ∧
    (pulseSpecAt f).t1h = ticks 16 f ∧ (pulseSpecAt f).t1l = ticks 9 f) ∧
  pulseSpecAt 20000000 = ⟨8, 17, 16, 9⟩ ∧ pulseSpecAt 10000000 = ⟨4, 9, 8, 5⟩

/-- All four tick counts are at least 1 exactly from 1250000 Hz on, and a configuration below that rate is refused
(the spec's inference in R123). -/
def Obligations.ValidRatesAreExactlyFrom1250000 : Prop :=
  (∀ f : Nat, (1 ≤ (pulseSpecAt f).t0h ∧ 1 ≤ (pulseSpecAt f).t0l ∧ 1 ≤ (pulseSpecAt f).t1h ∧
    1 ≤ (pulseSpecAt f).t1l) ↔ 1250000 ≤ f) ∧
  (∀ p : Params, p.resolutionHz < 1250000 → ∃ e, Config.ofParams p = .error e)

/-- R125: every pixel record of a frame is (g, r, b) and the frame has `FRAME_BYTES` bytes, `PIXEL_COUNT * 3`; for
every configuration. -/
def Obligations.FrameBroadcastsOneColorInWireOrder : Prop :=
  ∀ (c : Config) (col : Color),
    (frameOf c col).length = c.frameBytes ∧ c.frameBytes = c.pixelCount * 3 ∧
    ∀ p < c.pixelCount, (frameOf c col)[3 * p]? = some col.g ∧ (frameOf c col)[3 * p + 1]? = some col.r ∧
      (frameOf c col)[3 * p + 2]? = some col.b

/-- The colour is read back from bytes 1, 0 and 2 of its frame, so different colours have different frames (the spec's
inference in R126: "`Frame` is injective"). -/
def Obligations.FrameDeterminesItsColor : Prop :=
  ∀ (c : Config) (col : Color),
    (frameOf c col)[1]? = some col.r ∧ (frameOf c col)[0]? = some col.g ∧ (frameOf c col)[2]? = some col.b ∧
    ∀ col' : Color, frameOf c col = frameOf c col' → col = col'

/-- Element `8 i + (7 - k)` of the encoding is the symbol of bit `k` of byte `i`, and there is nothing else (R127; the
index is the spec's inference there). -/
def Obligations.EncodeEmitsTheSymbolOfEveryBit : Prop :=
  ∀ (ps : PulseSpec) (f : Frame),
    (encodeFrame ps f).length = 8 * f.length ∧
    ∀ (i : Nat) (b : Byte) (k : Fin 8), f[i]? = some b →
      (encodeFrame ps f)[8 * i + (7 - k.val)]? =
        some (if b.getLsbD k then (ps.t1h, ps.t1l) else (ps.t0h, ps.t0l))

/-- Nothing is added between frames (the spec's inference in R128). -/
def Obligations.EncodeOfConcatenationAddsNoGap : Prop :=
  ∀ (ps : PulseSpec) (f g : Frame), encodeFrame ps (f ++ g) = encodeFrame ps f ++ encodeFrame ps g

/-- The duration of a frame by its numbers of 0 bits and 1 bits; 31200 ticks for every colour at the reference rate
(the spec's inference in R131). -/
def Obligations.DurationCountsZeroAndOneBits : Prop :=
  (∀ (ps : PulseSpec) (f : Frame),
    (wave ps f).length = duration ps f ∧
    duration ps f = (f.flatMap bitsOfByte).count false * (ps.t0h + ps.t0l) +
      (f.flatMap bitsOfByte).count true * (ps.t1h + ps.t1l)) ∧
  ∀ col : Color, duration (pulseSpecAt 20000000) (frameOf params col) = 31200

/-! ### The operations: what each does, and that it completes -/

/-- The outputs are functions of the state alone (R155, decision D27). -/
def Obligations.OutputsFollowTheState : Prop :=
  ∀ s : State, ((outputs s).dout = true ↔ s.act = true ∧ s.pos.ph = true) ∧
    (outputs s).powerOn = s.powerOn ∧ (outputs s).txDone = s.txDone ∧ (outputs s).rspValid = s.rspValid ∧
    (outputs s).rspStatus = statusCode s.rspStatus

/-- R147: a `NOP` clears `rsp_valid` (R173) and runs the serializer phase, in each of its cases. It answers a next
state in every state in which the byte being played exists. -/
def Obligations.NopRunsTheSerializerPhase : Prop :=
  ∀ s : State,
    (s.act = false → s.q = [] → exec .nop s = .next { s with rspValid := false, txDone := false }) ∧
    (s.act = false → s.q ≠ [] →
      exec .nop s = .next { s with rspValid := false, txDone := false, act := true, pos := ⟨0, 7, true, 0⟩ }) ∧
    (∀ (f : Frame) (rest : List Frame) (byte : Byte), s.act = true → s.q = f :: rest →
      f[s.pos.byteIdx]? = some byte →
      exec .nop s = .next (
        if s.pos.cnt + 1 < (if s.pos.ph then
            (if byte.getLsbD s.pos.bitIdx then (pulseSpec params).t1h else (pulseSpec params).t0h)
          else (if byte.getLsbD s.pos.bitIdx then (pulseSpec params).t1l else (pulseSpec params).t0l)) then
          { s with rspValid := false, txDone := false, pos := { s.pos with cnt := s.pos.cnt + 1 } }
        else if s.pos.ph then
          { s with rspValid := false, txDone := false, pos := { s.pos with ph := false, cnt := 0 } }
        else if 0 < s.pos.bitIdx.val then
          { s with rspValid := false, txDone := false, pos := ⟨s.pos.byteIdx, s.pos.bitIdx - 1, true, 0⟩ }
        else if s.pos.byteIdx < params.frameBytes - 1 then
          { s with rspValid := false, txDone := false, pos := ⟨s.pos.byteIdx + 1, 7, true, 0⟩ }
        else
          { s with rspValid := false, txDone := true, q := rest, act := decide (rest ≠ []),
                   pos := ⟨0, 7, true, 0⟩ }))

/-- `SET_COLOR` in each of its four outcomes, as the change it makes to what a `NOP` would have left (R174, R173;
decisions D13 and D18). It answers a next state wherever the byte being played exists. -/
def Obligations.SetColorFollowsItsRule : Prop :=
  ∀ (s : State) (len : LenField) (data : DataField), Playable s →
    (decodeColor params data len = .error .invalidLength → ∃ u, exec .nop s = .next u ∧
      exec (.setColor len data) s = .next { u with rspValid := true, rspStatus := .invalidLength }) ∧
    (decodeColor params data len = .error .malformedPayload → ∃ u, exec .nop s = .next u ∧
      exec (.setColor len data) s = .next { u with rspValid := true, rspStatus := .malformedPayload }) ∧
    (∀ col : Color, decodeColor params data len = .ok col → params.queueDepth ≤ s.q.length →
      ∃ u, exec .nop s = .next u ∧
        exec (.setColor len data) s = .next { u with rspValid := true, rspStatus := .busy }) ∧
    (∀ col : Color, decodeColor params data len = .ok col → s.q.length < params.queueDepth →
      ∃ u, exec .nop { s with q := s.q ++ [frameOf params col] } = .next u ∧
        exec (.setColor len data) s = .next { u with lastColor := col, rspValid := true, rspStatus := .ok })

/-- `SET_POWER` in each of its four outcomes, as the change it makes to what a `NOP` would have left (R175, R173;
decisions D13 and D17). It answers a next state wherever the byte being played exists. -/
def Obligations.SetPowerFollowsItsRule : Prop :=
  ∀ (s : State) (len : LenField) (data : DataField), Playable s →
    (len.toNat ≠ 1 → ∃ u, exec .nop s = .next u ∧
      exec (.setPower len data) s = .next { u with rspValid := true, rspStatus := .invalidLength }) ∧
    (len.toNat = 1 → payloadByte data 0 ≠ 0x31 → ∃ u, exec .nop s = .next u ∧
      exec (.setPower len data) s = .next { u with powerOn := false, rspValid := true, rspStatus := .ok }) ∧
    (len.toNat = 1 → payloadByte data 0 = 0x31 → params.queueDepth ≤ s.q.length → ∃ u, exec .nop s = .next u ∧
      exec (.setPower len data) s = .next { u with powerOn := true, rspValid := true, rspStatus := .busy }) ∧
    (len.toNat = 1 → payloadByte data 0 = 0x31 → s.q.length < params.queueDepth →
      ∃ u, exec .nop { s with q := s.q ++ [frameOf params s.lastColor] } = .next u ∧
        exec (.setPower len data) s = .next { u with powerOn := true, rspValid := true, rspStatus := .ok })

/-- The command phase runs before the serializer phase (R64, decisions D14 and D15). (a) A push at the edge at which
the head ends is `Busy` when the queue was full, although the head is popped at that edge. (b) A frame pushed into an
empty queue starts at the same edge. -/
def Obligations.CommandPhaseRunsBeforeSerializerPhase : Prop :=
  (∀ (s : State) (len : LenField) (data : DataField) (col : Color), AtLastTick params s →
    s.q.length = params.queueDepth → decodeColor params data len = .ok col →
    ∃ t, exec (.setColor len data) s = .next t ∧ t.rspValid = true ∧ t.rspStatus = .busy ∧ t.txDone = true ∧
      t.q = s.q.tail ∧ t.lastColor = s.lastColor) ∧
  (∀ (s : State) (len : LenField) (data : DataField), AtLastTick params s →
    s.q.length = params.queueDepth → decodePower data len = .ok true →
    ∃ t, exec (.setPower len data) s = .next t ∧ t.rspValid = true ∧ t.rspStatus = .busy ∧ t.txDone = true ∧
      t.q = s.q.tail ∧ t.powerOn = true) ∧
  (∀ (s : State) (len : LenField) (data : DataField) (col : Color), s.act = false → s.q = [] →
    decodeColor params data len = .ok col →
    ∃ t, exec (.setColor len data) s = .next t ∧ t.q = [frameOf params col] ∧ t.act = true ∧
      t.pos = ⟨0, 7, true, 0⟩ ∧ dout t = true) ∧
  (∀ (s : State) (len : LenField) (data : DataField), s.act = false → s.q = [] →
    decodePower data len = .ok true →
    ∃ t, exec (.setPower len data) s = .next t ∧ t.q = [frameOf params s.lastColor] ∧ t.act = true ∧
      t.pos = ⟨0, 7, true, 0⟩ ∧ dout t = true)

/-- The machine stops only where the spec gives no meaning (U10). Every operation answers a next state when the byte to
be played is there (or `act = 0`). With `act = 1` and an empty queue, an operation other than `RESET` that pushes nothing
is refused, and one that pushes a frame plays that frame's byte if there is one, and is else refused; with a head frame
that has no such byte it is refused. `RESET` is never refused. Log entry 5 (the model's reading of U10). -/
def Obligations.OnlyAMissingFrameByteStopsTheMachine : Prop :=
  (∀ (i : Instr) (s : State), Playable s → ∃ t, exec i s = .next t) ∧
  (∀ s : State, ∃ t, exec .reset s = .next t) ∧
  (∀ (i : Instr) (s : State), i ≠ .reset → s.act = true → s.q = [] →
    (pushedFrames params i s = [] → exec i s = .refused .noFrameInFlight) ∧
    (∀ f : Frame, pushedFrames params i s = [f] → s.pos.byteIdx < f.length → ∃ t, exec i s = .next t) ∧
    (∀ f : Frame, pushedFrames params i s = [f] → f.length ≤ s.pos.byteIdx →
      exec i s = .refused .byteIndexPastFrame)) ∧
  (∀ (s : State) (f : Frame) (rest : List Frame), s.act = true → s.q = f :: rest → f.length ≤ s.pos.byteIdx →
    ∀ i : Instr, i ≠ .reset → exec i s = .refused .byteIndexPastFrame)

/-! ### Statuses (60_exceptions.md) -/

/-- R191, R199: the cause of every status, in their order of priority; `InvalidLength` does not depend on the payload's
bytes. The codes are 0, 1, 2 and 3 (R195, R191, R192, R194). -/
def Obligations.StatusesHaveTheirCausesInPriorityOrder : Prop :=
  statusCode .ok = 0 ∧ statusCode .invalidLength = 1 ∧ statusCode .malformedPayload = 2 ∧ statusCode .busy = 3 ∧
  ∀ (s t : State) (len : LenField) (data : DataField),
    (exec (.setColor len data) s = .next t → t.rspValid = true ∧
      t.rspStatus =
        (if len.toNat < 1 ∨ 10 < len.toNat then .invalidLength
         else if scanTriplet (fillBuffer params data len.toNat) = none then .malformedPayload
         else if s.q.length < params.queueDepth then .ok
         else .busy)) ∧
    (exec (.setPower len data) s = .next t → t.rspValid = true ∧
      t.rspStatus =
        (if len.toNat ≠ 1 then .invalidLength
         else if payloadByte data 0 ≠ 0x31 then .ok
         else if s.q.length < params.queueDepth then .ok
         else .busy))

/-- R196: a command that ends with a status other than `OK` leaves exactly what a `NOP` would have left, but for the
response registers, and for `power_on` after an on-command that ends with `Busy`. -/
def Obligations.FailingCommandsLeaveWhatANopLeaves : Prop :=
  ∀ (s t : State) (len : LenField) (data : DataField),
    (exec (.setColor len data) s = .next t → t.rspStatus ≠ .ok →
      ∃ u, exec .nop s = .next u ∧ t = { u with rspValid := true, rspStatus := t.rspStatus }) ∧
    (exec (.setPower len data) s = .next t → t.rspStatus ≠ .ok →
      ∃ u, exec .nop s = .next u ∧
        t = { u with powerOn := if t.rspStatus = .busy then true else u.powerOn, rspValid := true,
                     rspStatus := t.rspStatus }) ∧
    (exec (.setPower len data) s = .next t → t.rspStatus ≠ .malformedPayload)

/-- The response registers after a tick (R181, decision D26). -/
def Obligations.ResponseRegistersFollowTheTick : Prop :=
  ∀ s t : State, step s = .next t →
    (rstOf (nextInput s) = true → t.rspValid = false ∧ t.rspStatus = .ok) ∧
    (rstOf (nextInput s) = false → cmdValidOf (nextInput s) = false →
      t.rspValid = false ∧ t.rspStatus = s.rspStatus) ∧
    (rstOf (nextInput s) = false → cmdValidOf (nextInput s) = true → cmdCharOf (nextInput s) = false →
      t.rspValid = true ∧
      t.rspStatus = (doColor params (cmdLenOf (nextInput s)) (cmdDataOf (nextInput s)) s).2) ∧
    (rstOf (nextInput s) = false → cmdValidOf (nextInput s) = true → cmdCharOf (nextInput s) = true →
      t.rspValid = true ∧
      t.rspStatus = (doPower params (cmdLenOf (nextInput s)) (cmdDataOf (nextInput s)) s).2)

/-- A run of commands that the decoder rejects leaves the block, apart from the response registers, exactly as
a run of `NOP`s of the same length would (the spec's inference in R203). The run of `NOP`s is the one with nothing listed (log
entry 1). -/
def Obligations.RejectedCommandsActLikeNops : Prop :=
  ∀ (n : Nat) (s t : State), (∀ k < n, Rejected params (decode (inputAt s k))) → Reaches n s t →
    ∃ u, Reaches n { s with inputs := [] } u ∧
      t = { u with rspValid := t.rspValid, rspStatus := t.rspStatus, inputs := t.inputs }

/-! ### What an operation leaves alone -/

/-- The frames of the four operations: the elements each never writes (R172, R174, R175, R196; R20's "written by"
column; the host's list is the model's own, log entry 1). `act`, the position and `tx_done` belong to the serializer
phase and may change in each. -/
def Obligations.OperationsLeaveOtherElementsAlone : Prop :=
  (∀ s t : State, exec .nop s = .next t →
    t.powerOn = s.powerOn ∧ t.lastColor = s.lastColor ∧ t.rspStatus = s.rspStatus ∧ t.inputs = s.inputs ∧
    (t.q = s.q ∨ t.q = s.q.tail)) ∧
  (∀ (s t : State) (len : LenField) (data : DataField), exec (.setColor len data) s = .next t →
    t.powerOn = s.powerOn ∧ t.inputs = s.inputs ∧ (t.rspStatus ≠ .ok → t.lastColor = s.lastColor) ∧
    (t.rspStatus ≠ .ok → t.q = s.q ∨ t.q = s.q.tail)) ∧
  (∀ (s t : State) (len : LenField) (data : DataField), exec (.setPower len data) s = .next t →
    t.lastColor = s.lastColor ∧ t.inputs = s.inputs ∧ (len.toNat ≠ 1 → t.powerOn = s.powerOn) ∧
    (payloadByte data 0 ≠ 0x31 → t.q = s.q ∨ t.q = s.q.tail)) ∧
  (∀ s t : State, exec .reset s = .next t → t.inputs = s.inputs)

/-- R145: but for `RESET`, nothing changes the queue except a push of at most one frame at its tail and the pop of
its head, at the end of that frame: in the low part of bit 0 of its last byte. -/
def Obligations.QueueMovesOnlyAtItsEnds : Prop :=
  ∀ (i : Instr) (s t : State), i ≠ .reset → exec i s = .next t →
    (pushedFrames params i s).length ≤ 1 ∧
    t.q = (if t.txDone then (s.q ++ pushedFrames params i s).tail else s.q ++ pushedFrames params i s) ∧
    (t.txDone = true → s.act = true ∧ s.q ++ pushedFrames params i s ≠ [] ∧
      params.frameBytes - 1 ≤ s.pos.byteIdx ∧ s.pos.bitIdx = 0 ∧ s.pos.ph = false)

/-- No operation but `RESET` stops, shortens, restarts or alters the frame in flight (the spec's inference in R151): the
position and the completion flag after it are those a `NOP` leaves, the queue is what a `NOP` leaves with the pushed
frame, if any, behind it, and `act` stays 1 until the frame ends, and then exactly when a frame is waiting (R149). -/
def Obligations.OnlyResetAltersTheFrameInFlight : Prop :=
  ∀ (i : Instr) (s t u : State), i ≠ .reset → s.act = true → exec i s = .next t → exec .nop s = .next u →
    t.pos = u.pos ∧ t.txDone = u.txDone ∧ t.q = u.q ++ pushedFrames params i s ∧
    (pushedFrames params i s).length ≤ 1 ∧ (t.txDone = false → t.act = true) ∧
    (t.txDone = true → t.act = decide (t.q ≠ []))

/-- R21: the colour cache is written by an accepted `SET_COLOR`, with the decoded colour, and by `RESET`, only; it is
read by `SET_POWER` with on = true only (any other operation does the same whatever it holds); it has no output. -/
def Obligations.OnlyAcceptedColorsReachTheCache : Prop :=
  (∀ s t : State, step s = .next t →
    (nextInstr s = .reset → t.lastColor = params.defaultColor) ∧
    (∀ (len : LenField) (data : DataField), nextInstr s = .setColor len data → t.rspStatus = .ok →
      decodeColor params data len = .ok t.lastColor) ∧
    (nextInstr s ≠ .reset → t.lastColor ≠ s.lastColor → ∃ len data, nextInstr s = .setColor len data ∧
      t.rspStatus = .ok)) ∧
  (∀ (i : Instr) (s t : State) (other : Color),
    (∀ len data, i = .setPower len data → decodePower data len ≠ .ok true) → exec i s = .next t →
    ∃ col, exec i { s with lastColor := other } = .next { t with lastColor := col }) ∧
  ∀ (s : State) (other : Color), outputs { s with lastColor := other } = outputs s

/-- R22: the power line is written by every `SET_POWER` whose length check passes, also a `Busy` one, and by `RESET`,
only; no operation reads it (each does the same whatever it holds); it is the output of its name. -/
def Obligations.OnlyDecodedPowerCommandsDriveThePowerLine : Prop :=
  (∀ s t : State, step s = .next t →
    (nextInstr s = .reset → t.powerOn = true) ∧
    (∀ (len : LenField) (data : DataField), nextInstr s = .setPower len data → len.toNat = 1 →
      t.powerOn = decide (payloadByte data 0 = 0x31)) ∧
    (t.powerOn ≠ s.powerOn → nextInstr s = .reset ∨
      ∃ len data, nextInstr s = .setPower len data ∧ len.toNat = 1)) ∧
  (∀ (i : Instr) (s t : State) (other : Bool), exec i s = .next t →
    ∃ line, exec i { s with powerOn := other } = .next { t with powerOn := line }) ∧
  ∀ s : State, (outputs s).powerOn = s.powerOn

/-- Colour is not gated by power: `SET_COLOR` gives the same with the line high and low (R180, decision D19). -/
def Obligations.ColorCommandsIgnoreThePowerLine : Prop :=
  ∀ (s t : State) (len : LenField) (data : DataField) (line : Bool), exec (.setColor len data) s = .next t →
    exec (.setColor len data) { s with powerOn := line } = .next { t with powerOn := line }

/-! ### Invariants (10_state.md) -/

/-- The reset state meets the invariants of R24, R26 and R152 (the spec's inferences), whatever the host will
present. -/
def Obligations.ResetMeetsTheInvariant : Prop :=
  ∀ inputs : List InputVec, Inv params { State.reset with inputs := inputs }

/-- Every step keeps the invariants of R24, R26 and R152 (the spec's inferences: "preserved by every `Step`"), from
every state that meets them. -/
def Obligations.StepKeepsTheInvariant : Prop :=
  ∀ s t : State, Inv params s → step s = .next t → Inv params t

/-- In a state that meets the invariants the step is never refused, at any configuration, and what it leaves meets
them again ("total on every state that satisfies" R24, R147). -/
def Obligations.EveryConfigurationStepsForever : Prop :=
  ∀ (c : Config) (s : State), Inv c s → ∀ n : Nat, ∃ t, Host.Core.run (coreOn c) n s = .next t ∧ Inv c t

/-! ### Transmissions (42_transmit_channel.md) -/

/-- What a transmission looks like from outside, whatever commands arrive while it plays (the spec's inference in
R153: "the statement a model should prove of its `SerPhase`"). -/
def Obligations.FrameInFlightPlaysItsWaveform : Prop :=
  ∀ (s : State) (f : Frame), AtFirstTick s f → f.length = params.frameBytes →
    NoResetFor (duration (pulseSpec params) f) s →
    ∀ k ≤ duration (pulseSpec params) f, ∃ t pushed, Reaches k s t ∧
      (k < duration (pulseSpec params) f →
        (wave (pulseSpec params) f)[k]? = some (dout t) ∧ t.act = true ∧ t.q = s.q ++ pushed ∧
        (0 < k → t.txDone = false)) ∧
      (k = duration (pulseSpec params) f →
        t.txDone = true ∧ t.q = s.q.tail ++ pushed ∧
        ((t.act = false ∧ t.q = []) ∨ ∃ g, AtFirstTick t g))

/-- With a silent host, all outstanding frames are played in order and back to back, `tx_done` pulses once for
each, and the block comes to rest (R149, decision D15, and the spec's inference in R182). A silent host lists nothing
(log entry 1). -/
def Obligations.OutstandingFramesPlayBackToBack : Prop :=
  ∀ s : State, Inv params s → s.inputs = [] → s.act = true → s.pos = Position.start →
    (observe ((s.q.map (duration (pulseSpec params))).sum) s).map Outputs.dout =
      s.q.flatMap (wave (pulseSpec params)) ∧
    completionsIn ((s.q.map (duration (pulseSpec params))).sum) s = s.q.length ∧
    ∃ t, Reaches ((s.q.map (duration (pulseSpec params))).sum) s t ∧ AtRest t ∧ dout t = false

/-- If the host stops sending commands, the block comes to rest (the spec's inference in R182), from every state that
meets the invariants, within one tick more than the frames outstanding last. A silent host lists nothing (log
entry 1). -/
def Obligations.SilentBlockComesToRest : Prop :=
  ∀ s : State, Inv params s → s.inputs = [] →
    ∃ n t, n ≤ (s.q.map (duration (pulseSpec params))).sum + 1 ∧ Reaches n s t ∧ AtRest t ∧ dout t = false ∧
      completionsIn n s = s.q.length

/-- Frames leave the queue in the order they were pushed (R63), and the occupancy is the frames at the start and those
pushed since, less the `tx_done` pulses (the spec's inference in R34). -/
def Obligations.FramesLeaveInPushOrder : Prop :=
  ∀ (n : Nat) (s t : State), NoResetFor n s → Reaches n s t →
    completionsIn n s ≤ s.q.length + (pushedIn n s).length ∧
    t.q = (s.q ++ pushedIn n s).drop (completionsIn n s)

/-- Completions are never adjacent, and a frame lasts at least `2 * FRAME_BITS` ticks (the spec's inference in
R232). -/
def Obligations.CompletionsAreNeverAdjacent : Prop :=
  (∀ s t : State, Inv params s → s.txDone = true → step s = .next t → t.txDone = false) ∧
  (∀ (c : Config) (f : Frame), f.length = c.frameBytes → 2 * c.frameBits ≤ duration (pulseSpec c) f)

/-! ### Startup and the host's duty (43_command_router.md, 70_reset_and_hazards.md) -/

/-- Power before colour (R176, decision D20): the line is high and the wire low in the reset state and while `rst` is
held; the first tick of the startup frame is the next tick after the first edge without reset. -/
def Obligations.PowerIsHighBeforeTheStartupFrame : Prop :=
  (∀ (n : Nat) (inputs : List InputVec), (∀ k < n, rstOf (inputs.getD k silentInput) = true) →
    ∃ t, Reaches n { State.reset with inputs := inputs } t ∧ t.powerOn = true ∧ dout t = false) ∧
  (∀ s : State, IsResetState params s → rstOf (nextInput s) = false →
    ∃ t, step s = .next t ∧ AtFirstTick t (frameOf params params.defaultColor) ∧ dout t = true)

/-- What happens after reset with no commands (the spec's inference in R223), tick by tick: `n` ticks after the reset
state, `NOP`s only having been presented. A tick for which the host's list holds nothing is a `NOP` (log entry 1, the
model's choice); ticks whose `NOP` is listed are covered alike. -/
def Obligations.StartupFramePlaysOnceAfterReset : Prop :=
  (∀ (s : State) (n : Nat), IsResetState params s → (∀ k < n, decode (inputAt s k) = .nop) →
    ∃ t, Reaches n s t ∧
      (n = 0 → dout t = false) ∧
      (1 ≤ n → n ≤ duration (pulseSpec params) (frameOf params params.defaultColor) →
        (wave (pulseSpec params) (frameOf params params.defaultColor))[n - 1]? = some (dout t)) ∧
      (duration (pulseSpec params) (frameOf params params.defaultColor) + 1 ≤ n → AtRest t ∧ dout t = false) ∧
      (t.txDone = true ↔ n = duration (pulseSpec params) (frameOf params params.defaultColor) + 1)) ∧
  duration (pulseSpecAt 20000000) (frameOf params params.defaultColor) = 31200

/-- A host that keeps the duty of R230 has at most one frame outstanding and never gets `Busy` (R231). -/
def Obligations.DutifulHostNeverSeesBusy : Prop :=
  ∀ (n quiet : Nat) (s t : State), s.q.length ≤ 1 → KeepsDuty params n quiet s → Reaches n s t →
    t.q.length ≤ 1 ∧ (0 < n → t.rspValid = true → t.rspStatus ≠ .busy)
end

