-- ==== Sys2Proof/Laws/Decode.lean ====
section
/-! SUPPORT. The fields of a packed input vector (R71), and the numbers that byte lists hold. -/

namespace Sys2Proof

variable (rst valid char : Bool) (len : LenField) (data : DataField)

/-- The packed word bit by bit (R71). -/
theorem getLsbD_packInput (i : Nat) : (packInput rst valid char len data).getLsbD i =
    if i < 80 then data.getLsbD i
    else if i < 88 then len.getLsbD (i - 80)
    else if i < 89 then char && (i == 88)
    else if i < 90 then valid && (i == 89)
    else rst && (i == 90) := by
  change (BitVec.ofBool rst ++ (BitVec.ofBool valid ++ (BitVec.ofBool char ++ (len ++ data))) :
    BitVec (1 + (1 + (1 + (8 + 80))))).getLsbD i = _
  simp only [BitVec.getLsbD_append, BitVec.getLsbD_ofBool]
  repeat' split
  all_goals first | omega | rfl | skip
  all_goals
    rw [Bool.and_comm]
    congr 1
    simp only [beq_eq_decide, decide_eq_decide]
    omega

@[simp] theorem rstOf_packInput : rstOf (packInput rst valid char len data) = rst := by
  rw [rstOf, getLsbD_packInput]
  simp

@[simp] theorem cmdValidOf_packInput : cmdValidOf (packInput rst valid char len data) = valid := by
  rw [cmdValidOf, getLsbD_packInput]
  simp

@[simp] theorem cmdCharOf_packInput : cmdCharOf (packInput rst valid char len data) = char := by
  rw [cmdCharOf, getLsbD_packInput]
  simp

@[simp] theorem cmdLenOf_packInput : cmdLenOf (packInput rst valid char len data) = len := by
  apply BitVec.eq_of_getLsbD_eq
  intro i hi
  have h₁ : ¬ 80 + i < 80 := by omega
  have h₂ : 80 + i < 88 := by omega
  simp [cmdLenOf, getLsbD_packInput, h₂, hi]

@[simp] theorem cmdDataOf_packInput : cmdDataOf (packInput rst valid char len data) = data := by
  apply BitVec.eq_of_getLsbD_eq
  intro i hi
  simp [cmdDataOf, getLsbD_packInput, hi]

/-! ### Selection, one lemma per row (R72) -/

theorem decode_of_rst {v : InputVec} (h : rstOf v = true) : decode v = .reset := by
  unfold decode
  rw [h]
  rfl

theorem decode_of_idle {v : InputVec} (h : rstOf v = false) (hv : cmdValidOf v = false) : decode v = .nop := by
  unfold decode
  rw [h, hv]
  rfl

theorem decode_of_color {v : InputVec} (h : rstOf v = false) (hv : cmdValidOf v = true) (hc : cmdCharOf v = false) :
    decode v = .setColor (cmdLenOf v) (cmdDataOf v) := by
  unfold decode
  rw [h, hv, hc]
  rfl

theorem decode_of_power {v : InputVec} (h : rstOf v = false) (hv : cmdValidOf v = true) (hc : cmdCharOf v = true) :
    decode v = .setPower (cmdLenOf v) (cmdDataOf v) := by
  unfold decode
  rw [h, hv, hc]
  rfl

/-! ### Byte lists -/

theorem natOfBytes_lt (bs : List Byte) : natOfBytes bs < 256 ^ bs.length := by
  induction bs with
  | nil => simp [natOfBytes]
  | cons b bs ih =>
    have := b.isLt
    simp only [natOfBytes, List.length_cons, Nat.pow_succ]
    omega

@[simp] theorem bytesOfNat_length (n w : Nat) : (bytesOfNat n w).length = n := by
  induction n generalizing w with
  | zero => rfl
  | succ n ih => simp [bytesOfNat, ih]

/-- `n` bytes hold a number modulo `256 ^ n`. -/
theorem natOfBytes_bytesOfNat (n w : Nat) : natOfBytes (bytesOfNat n w) = w % 256 ^ n := by
  induction n generalizing w with
  | zero => simp [bytesOfNat, natOfBytes, Nat.mod_one]
  | succ n ih =>
    have e : 256 ^ (n + 1) = 256 * 256 ^ n := by ring
    rw [e, Nat.mod_mul, bytesOfNat, natOfBytes, ih, BitVec.toNat_ofNat]

/-- What the byte decoder reads from 12 bytes with anything behind them. -/
theorem decodeBytes_append (bs rest : List Byte) (h : bs.length = inputBytes) :
    decodeBytes (bs ++ rest) =
      if natOfBytes bs < 2 ^ 91 then .ok (decode (BitVec.ofNat 91 (natOfBytes bs)), rest)
      else .error .paddingSet := by
  unfold decodeBytes
  rw [if_neg (by rw [List.length_append]; omega), ← h, List.take_left' rfl, List.drop_left' rfl]

end Sys2Proof
end

