-- ==== Sys2Proof/Laws/Encoder.lean ====
section
/-! SUPPORT. Lengths and bounds of the frame builder and the encoder. -/

namespace Sys2Proof.Machine

@[simp] theorem params_pixelCount : params.pixelCount = 52 := rfl
@[simp] theorem params_queueDepth : params.queueDepth = 4 := rfl
@[simp] theorem params_minLen : params.minLen = 1 := rfl
@[simp] theorem params_maxLen : params.maxLen = 10 := rfl
@[simp] theorem params_frameBytes : params.frameBytes = 156 := rfl
@[simp] theorem params_pbufBytes : params.pbufBytes = 11 := rfl

theorem frameBytes_pos (c : Config) : 3 ≤ c.frameBytes := by
  have := c.valid.1
  unfold Config.frameBytes
  omega

@[simp] theorem frameOf_length (c : Config) (col : Color) : (frameOf c col).length = c.frameBytes := by
  simp [frameOf, pixelRecord, Config.frameBytes]

@[simp] theorem bitsOfByte_length (b : Byte) : (bitsOfByte b).length = 8 := rfl

/-- The `i`-th bit sent of a byte is bit `7 - i` (R54). -/
theorem bitsOfByte_getElem (b : Byte) (i : Nat) (h : i < 8) : (bitsOfByte b)[i]? = some (b.getLsbD (7 - i)) := by
  match i, h with
  | 0, _ | 1, _ | 2, _ | 3, _ | 4, _ | 5, _ | 6, _ | 7, _ => rfl

@[simp] theorem pulseWave_length (p : PulsePair) : (pulseWave p).length = p.1 + p.2 := by simp [pulseWave]

@[simp] theorem partTicks_high (ps : PulseSpec) (b : Bool) : partTicks ps b true = highTicks ps b := rfl

@[simp] theorem partTicks_low (ps : PulseSpec) (b : Bool) : partTicks ps b false = lowTicks ps b := rfl

/-- A duration of at least 8 units is at least one tick at every valid rate (R123). -/
theorem ticks_pos (units f : Nat) (hu : 8 ≤ units) (hf : minResolutionHz ≤ f) : 1 ≤ ticks units f := by
  have : 8 * minResolutionHz ≤ units * f := Nat.mul_le_mul hu hf
  unfold minResolutionHz at this
  unfold ticks
  omega

/-- All four tick counts are at least 1 at every valid rate (R123). -/
theorem pulseSpecAt_pos (f : Nat) (hf : minResolutionHz ≤ f) :
    1 ≤ (pulseSpecAt f).t0h ∧ 1 ≤ (pulseSpecAt f).t0l ∧ 1 ≤ (pulseSpecAt f).t1h ∧ 1 ≤ (pulseSpecAt f).t1l := by
  simp only [pulseSpecAt]
  exact ⟨ticks_pos 8 f (by omega) hf, ticks_pos 17 f (by omega) hf, ticks_pos 16 f (by omega) hf,
    ticks_pos 9 f (by omega) hf⟩

/-- No part of a symbol is empty (R123). -/
theorem partTicks_pos (c : Config) (b ph : Bool) : 1 ≤ partTicks (pulseSpec c) b ph := by
  obtain ⟨h₁, h₂, h₃, h₄⟩ := pulseSpecAt_pos c.resolutionHz c.valid.2.2.1
  unfold partTicks highTicks lowTicks pulseSpec
  split <;> split <;> assumption

end Sys2Proof.Machine
end

