-- ==== Sys2Proof/Laws/Operands.lean ====
section
/-! SUPPORT. What each function of the Command Decoder answers. -/

namespace Sys2Proof.Machine

/-! ### FillBuffer (R102) -/

@[simp] theorem fillBuffer_length (c : Config) (data : DataField) (len : Nat) :
    (fillBuffer c data len).length = c.pbufBytes := by simp [fillBuffer]

theorem fillBuffer_getElem (c : Config) (data : DataField) (len i : Nat) (h : i < c.pbufBytes) :
    (fillBuffer c data len)[i]? = some (if i < len then payloadByte data i else 0) := by
  simp [fillBuffer, h]

/-- The buffer depends on the first `len` payload bytes only (R73, R108 (d)). -/
theorem fillBuffer_congr (c : Config) (d₁ d₂ : DataField) (len : Nat)
    (h : ∀ i < len, payloadByte d₁ i = payloadByte d₂ i) : fillBuffer c d₁ len = fillBuffer c d₂ len := by
  unfold fillBuffer
  refine List.map_congr_left fun i _ => ?_
  split
  · exact h i ‹_›
  · rfl

/-! ### The scan (R104, R105) -/

/-- The digits taken are a prefix, and no digit follows them. -/
theorem scanDigits_split (v : Nat) (bs : List Byte) : ∃ ds, bs = ds ++ (scanDigits v bs).2 ∧
    (∀ b ∈ ds, isDigit b = true) ∧ (∀ b, (scanDigits v bs).2.head? = some b → isDigit b = false) ∧
    (scanDigits v bs).1 = ds.foldl (fun v b => v * 10 + digitValue b) v := by
  induction bs generalizing v with
  | nil => exact ⟨[], by simp [scanDigits]⟩
  | cons b bs ih =>
    by_cases hb : isDigit b = true
    · obtain ⟨ds, h₁, h₂, h₃, h₄⟩ := ih (v * 10 + digitValue b)
      have e : scanDigits v (b :: bs) = scanDigits (v * 10 + digitValue b) bs := by simp [scanDigits, hb]
      rw [e]
      refine ⟨b :: ds, ?_, ?_, ?_, ?_⟩
      · rw [List.cons_append, ← h₁]
      · intro x hx
        rcases List.mem_cons.1 hx with rfl | hx
        · exact hb
        · exact h₂ x hx
      · exact h₃
      · rw [h₄, List.foldl_cons]
    · have e : scanDigits v (b :: bs) = (v, b :: bs) := by simp [scanDigits, hb]
      exact ⟨[], by simp [e, hb]⟩

/-- Digits followed by no digit are taken whole. -/
theorem scanDigits_append (ds rest : List Byte) (v : Nat) (hd : ∀ b ∈ ds, isDigit b = true)
    (hr : ∀ b, rest.head? = some b → isDigit b = false) :
    scanDigits v (ds ++ rest) = (ds.foldl (fun v b => v * 10 + digitValue b) v, rest) := by
  induction ds generalizing v with
  | nil =>
    cases rest with
    | nil => rfl
    | cons b bs => simp [scanDigits, hr b rfl]
  | cons d ds ih =>
    have h₁ := hd d (by simp)
    simp only [List.cons_append, scanDigits, h₁, if_true, List.foldl_cons]
    exact ih _ fun b hb => hd b (by simp [hb])

theorem isDigit_minusSign : isDigit minusSign = false := by decide

theorem isDigit_commaSign : isDigit commaSign = false := by decide

theorem scanComma_eq_some (bs rest : List Byte) : scanComma bs = some rest ↔ bs = commaSign :: rest := by
  cases bs with
  | nil => simp [scanComma]
  | cons b bs =>
    simp only [scanComma]
    split
    · simp_all
    · simp_all

/-! ### The clamp (R106) and the two decoders (R100, R110) -/

theorem clamp_toNat (v : Int) : (clamp v).toNat = if v < 0 then 0 else if 255 < v then 255 else v.toNat := by
  unfold clamp
  split
  · rfl
  · split
    · rfl
    · simp only [BitVec.toNat_ofNat]
      omega

/-- What `DecodeColor` answers, in the order of its tests (R100). -/
theorem decodeColor_cases (c : Config) (data : DataField) (len : LenField) :
    (decodeColor c data len = .error .invalidLength ∧ (len.toNat < c.minLen ∨ c.maxLen < len.toNat)) ∨
    (decodeColor c data len = .error .malformedPayload ∧ c.minLen ≤ len.toNat ∧ len.toNat ≤ c.maxLen ∧
      scanTriplet (fillBuffer c data len.toNat) = none) ∨
    (∃ v0 v1 v2, decodeColor c data len = .ok ⟨clamp v0, clamp v1, clamp v2⟩ ∧ c.minLen ≤ len.toNat ∧
      len.toNat ≤ c.maxLen ∧ scanTriplet (fillBuffer c data len.toNat) = some (v0, v1, v2)) := by
  unfold decodeColor
  by_cases h : len.toNat < c.minLen ∨ c.maxLen < len.toNat
  · left
    simp [h]
  · right
    have h₁ : ¬ len.toNat < c.minLen := fun x => h (.inl x)
    have h₂ : ¬ c.maxLen < len.toNat := fun x => h (.inr x)
    rw [if_neg h]
    rcases hs : scanTriplet (fillBuffer c data len.toNat) with _ | ⟨v0, v1, v2⟩
    · exact .inl ⟨rfl, by omega, by omega, rfl⟩
    · exact .inr ⟨v0, v1, v2, rfl, by omega, by omega, rfl⟩

/-- What `DecodePower` answers (R110). -/
theorem decodePower_cases (data : DataField) (len : LenField) :
    (decodePower data len = .error .invalidLength ∧ len.toNat ≠ 1) ∨
    (decodePower data len = .ok (payloadByte data 0 == 0x31) ∧ len.toNat = 1) := by
  unfold decodePower powerLen
  by_cases h : len.toNat = 1 <;> simp [h]

end Sys2Proof.Machine
end

