-- ==== Sys2Proof/Laws/State.lean ====
section
/-! SUPPORT. One lemma per field per update of the state. -/

namespace Sys2Proof.Machine

variable (s : State)

/-! ### setTxDone -/

@[simp] theorem setTxDone_powerOn (b : Bool) : (setTxDone b s).powerOn = s.powerOn := rfl
@[simp] theorem setTxDone_lastColor (b : Bool) : (setTxDone b s).lastColor = s.lastColor := rfl
@[simp] theorem setTxDone_q (b : Bool) : (setTxDone b s).q = s.q := rfl
@[simp] theorem setTxDone_act (b : Bool) : (setTxDone b s).act = s.act := rfl
@[simp] theorem setTxDone_pos (b : Bool) : (setTxDone b s).pos = s.pos := rfl
@[simp] theorem setTxDone_txDone (b : Bool) : (setTxDone b s).txDone = b := rfl
@[simp] theorem setTxDone_rspValid (b : Bool) : (setTxDone b s).rspValid = s.rspValid := rfl
@[simp] theorem setTxDone_rspStatus (b : Bool) : (setTxDone b s).rspStatus = s.rspStatus := rfl
@[simp] theorem setTxDone_inputs (b : Bool) : (setTxDone b s).inputs = s.inputs := rfl

/-! ### respond -/

@[simp] theorem respond_powerOn (st : Status) : (respond st s).powerOn = s.powerOn := rfl
@[simp] theorem respond_lastColor (st : Status) : (respond st s).lastColor = s.lastColor := rfl
@[simp] theorem respond_q (st : Status) : (respond st s).q = s.q := rfl
@[simp] theorem respond_act (st : Status) : (respond st s).act = s.act := rfl
@[simp] theorem respond_pos (st : Status) : (respond st s).pos = s.pos := rfl
@[simp] theorem respond_txDone (st : Status) : (respond st s).txDone = s.txDone := rfl
@[simp] theorem respond_rspValid (st : Status) : (respond st s).rspValid = true := rfl
@[simp] theorem respond_rspStatus (st : Status) : (respond st s).rspStatus = st := rfl
@[simp] theorem respond_inputs (st : Status) : (respond st s).inputs = s.inputs := rfl

/-! ### noResponse -/

@[simp] theorem noResponse_powerOn : (noResponse s).powerOn = s.powerOn := rfl
@[simp] theorem noResponse_lastColor : (noResponse s).lastColor = s.lastColor := rfl
@[simp] theorem noResponse_q : (noResponse s).q = s.q := rfl
@[simp] theorem noResponse_act : (noResponse s).act = s.act := rfl
@[simp] theorem noResponse_pos : (noResponse s).pos = s.pos := rfl
@[simp] theorem noResponse_txDone : (noResponse s).txDone = s.txDone := rfl
@[simp] theorem noResponse_rspValid : (noResponse s).rspValid = false := rfl
@[simp] theorem noResponse_rspStatus : (noResponse s).rspStatus = s.rspStatus := rfl
@[simp] theorem noResponse_inputs : (noResponse s).inputs = s.inputs := rfl

/-! ### setPowerLine -/

@[simp] theorem setPowerLine_powerOn (b : Bool) : (setPowerLine b s).powerOn = b := rfl
@[simp] theorem setPowerLine_lastColor (b : Bool) : (setPowerLine b s).lastColor = s.lastColor := rfl
@[simp] theorem setPowerLine_q (b : Bool) : (setPowerLine b s).q = s.q := rfl
@[simp] theorem setPowerLine_act (b : Bool) : (setPowerLine b s).act = s.act := rfl
@[simp] theorem setPowerLine_pos (b : Bool) : (setPowerLine b s).pos = s.pos := rfl
@[simp] theorem setPowerLine_txDone (b : Bool) : (setPowerLine b s).txDone = s.txDone := rfl
@[simp] theorem setPowerLine_rspValid (b : Bool) : (setPowerLine b s).rspValid = s.rspValid := rfl
@[simp] theorem setPowerLine_rspStatus (b : Bool) : (setPowerLine b s).rspStatus = s.rspStatus := rfl
@[simp] theorem setPowerLine_inputs (b : Bool) : (setPowerLine b s).inputs = s.inputs := rfl

/-! ### setLastColor -/

@[simp] theorem setLastColor_powerOn (col : Color) : (setLastColor col s).powerOn = s.powerOn := rfl
@[simp] theorem setLastColor_lastColor (col : Color) : (setLastColor col s).lastColor = col := rfl
@[simp] theorem setLastColor_q (col : Color) : (setLastColor col s).q = s.q := rfl
@[simp] theorem setLastColor_act (col : Color) : (setLastColor col s).act = s.act := rfl
@[simp] theorem setLastColor_pos (col : Color) : (setLastColor col s).pos = s.pos := rfl
@[simp] theorem setLastColor_txDone (col : Color) : (setLastColor col s).txDone = s.txDone := rfl
@[simp] theorem setLastColor_rspValid (col : Color) : (setLastColor col s).rspValid = s.rspValid := rfl
@[simp] theorem setLastColor_rspStatus (col : Color) : (setLastColor col s).rspStatus = s.rspStatus := rfl
@[simp] theorem setLastColor_inputs (col : Color) : (setLastColor col s).inputs = s.inputs := rfl

/-! ### setSerializer -/

@[simp] theorem setSerializer_powerOn (a : Bool) (p : Position) : (setSerializer a p s).powerOn = s.powerOn := rfl
@[simp] theorem setSerializer_lastColor (a : Bool) (p : Position) : (setSerializer a p s).lastColor = s.lastColor := rfl
@[simp] theorem setSerializer_q (a : Bool) (p : Position) : (setSerializer a p s).q = s.q := rfl
@[simp] theorem setSerializer_act (a : Bool) (p : Position) : (setSerializer a p s).act = a := rfl
@[simp] theorem setSerializer_pos (a : Bool) (p : Position) : (setSerializer a p s).pos = p := rfl
@[simp] theorem setSerializer_txDone (a : Bool) (p : Position) : (setSerializer a p s).txDone = s.txDone := rfl
@[simp] theorem setSerializer_rspValid (a : Bool) (p : Position) : (setSerializer a p s).rspValid = s.rspValid := rfl
@[simp] theorem setSerializer_rspStatus (a : Bool) (p : Position) : (setSerializer a p s).rspStatus = s.rspStatus := rfl
@[simp] theorem setSerializer_inputs (a : Bool) (p : Position) : (setSerializer a p s).inputs = s.inputs := rfl

/-! ### queuePush -/

@[simp] theorem queuePush_powerOn (f : Frame) : (queuePush f s).powerOn = s.powerOn := rfl
@[simp] theorem queuePush_lastColor (f : Frame) : (queuePush f s).lastColor = s.lastColor := rfl
@[simp] theorem queuePush_q (f : Frame) : (queuePush f s).q = s.q ++ [f] := rfl
@[simp] theorem queuePush_act (f : Frame) : (queuePush f s).act = s.act := rfl
@[simp] theorem queuePush_pos (f : Frame) : (queuePush f s).pos = s.pos := rfl
@[simp] theorem queuePush_txDone (f : Frame) : (queuePush f s).txDone = s.txDone := rfl
@[simp] theorem queuePush_rspValid (f : Frame) : (queuePush f s).rspValid = s.rspValid := rfl
@[simp] theorem queuePush_rspStatus (f : Frame) : (queuePush f s).rspStatus = s.rspStatus := rfl
@[simp] theorem queuePush_inputs (f : Frame) : (queuePush f s).inputs = s.inputs := rfl

/-! ### queuePop -/

@[simp] theorem queuePop_powerOn : (queuePop s).powerOn = s.powerOn := rfl
@[simp] theorem queuePop_lastColor : (queuePop s).lastColor = s.lastColor := rfl
@[simp] theorem queuePop_q : (queuePop s).q = s.q.tail := rfl
@[simp] theorem queuePop_act : (queuePop s).act = s.act := rfl
@[simp] theorem queuePop_pos : (queuePop s).pos = s.pos := rfl
@[simp] theorem queuePop_txDone : (queuePop s).txDone = s.txDone := rfl
@[simp] theorem queuePop_rspValid : (queuePop s).rspValid = s.rspValid := rfl
@[simp] theorem queuePop_rspStatus : (queuePop s).rspStatus = s.rspStatus := rfl
@[simp] theorem queuePop_inputs : (queuePop s).inputs = s.inputs := rfl

/-! ### popInput -/

@[simp] theorem popInput_powerOn : (popInput s).powerOn = s.powerOn := rfl
@[simp] theorem popInput_lastColor : (popInput s).lastColor = s.lastColor := rfl
@[simp] theorem popInput_q : (popInput s).q = s.q := rfl
@[simp] theorem popInput_act : (popInput s).act = s.act := rfl
@[simp] theorem popInput_pos : (popInput s).pos = s.pos := rfl
@[simp] theorem popInput_txDone : (popInput s).txDone = s.txDone := rfl
@[simp] theorem popInput_rspValid : (popInput s).rspValid = s.rspValid := rfl
@[simp] theorem popInput_rspStatus : (popInput s).rspStatus = s.rspStatus := rfl
@[simp] theorem popInput_inputs : (popInput s).inputs = s.inputs.tail := rfl

/-! ### The reset value (R33) -/

@[simp] theorem resetOf_powerOn (c : Config) : (State.resetOf c).powerOn = true := rfl
@[simp] theorem resetOf_lastColor (c : Config) : (State.resetOf c).lastColor = c.defaultColor := rfl
@[simp] theorem resetOf_q (c : Config) : (State.resetOf c).q = [frameOf c c.defaultColor] := rfl
@[simp] theorem resetOf_act (c : Config) : (State.resetOf c).act = false := rfl
@[simp] theorem resetOf_pos (c : Config) : (State.resetOf c).pos = Position.start := rfl
@[simp] theorem resetOf_txDone (c : Config) : (State.resetOf c).txDone = false := rfl
@[simp] theorem resetOf_rspValid (c : Config) : (State.resetOf c).rspValid = false := rfl
@[simp] theorem resetOf_rspStatus (c : Config) : (State.resetOf c).rspStatus = .ok := rfl
@[simp] theorem resetOf_inputs (c : Config) : (State.resetOf c).inputs = [] := rfl

@[simp] theorem start_byteIdx : Position.start.byteIdx = 0 := rfl
@[simp] theorem start_bitIdx : Position.start.bitIdx = 7 := rfl
@[simp] theorem start_ph : Position.start.ph = true := rfl
@[simp] theorem start_cnt : Position.start.cnt = 0 := rfl

/-! ### The current bit depends on the head of the queue and the position only (R146) -/

@[simp] theorem currentBit_setTxDone (b : Bool) : currentBit (setTxDone b s) = currentBit s := rfl
@[simp] theorem currentBit_respond (st : Status) : currentBit (respond st s) = currentBit s := rfl
@[simp] theorem currentBit_noResponse : currentBit (noResponse s) = currentBit s := rfl
@[simp] theorem currentBit_setPowerLine (b : Bool) : currentBit (setPowerLine b s) = currentBit s := rfl
@[simp] theorem currentBit_setLastColor (col : Color) : currentBit (setLastColor col s) = currentBit s := rfl
@[simp] theorem currentBit_popInput : currentBit (popInput s) = currentBit s := rfl

end Sys2Proof.Machine
end

