-- ==== Sys2Proof/Laws/Ops.lean ====
section
/-! SUPPORT. Once for each shared operation: everything it can do. -/

namespace Sys2Proof.Machine

/-! ### Submit (R143) -/

theorem submit_of_lt {c : Config} {s : State} (f : Frame) (h : s.q.length < c.queueDepth) :
    submit c f s = some (queuePush f s) := if_pos h

theorem submit_of_full {c : Config} {s : State} (f : Frame) (h : ¬ s.q.length < c.queueDepth) :
    submit c f s = none := if_neg h

/-! ### The serializer -/

/-- Everything one tick of the walk can do (R147). -/
theorem advance_cases (n dur : Nat) (p : Position) :
    (p.cnt + 1 < dur ∧ advance n dur p = some { p with cnt := p.cnt + 1 }) ∨
    (dur ≤ p.cnt + 1 ∧ p.ph = true ∧ advance n dur p = some { p with ph := false, cnt := 0 }) ∨
    (dur ≤ p.cnt + 1 ∧ p.ph = false ∧ 0 < p.bitIdx ∧
      advance n dur p = some { p with bitIdx := p.bitIdx - 1, ph := true, cnt := 0 }) ∨
    (dur ≤ p.cnt + 1 ∧ p.ph = false ∧ p.bitIdx = 0 ∧ p.byteIdx < n - 1 ∧
      advance n dur p = some ⟨p.byteIdx + 1, 7, true, 0⟩) ∨
    (dur ≤ p.cnt + 1 ∧ p.ph = false ∧ p.bitIdx = 0 ∧ n - 1 ≤ p.byteIdx ∧ advance n dur p = none) := by
  unfold advance
  by_cases h₁ : p.cnt + 1 < dur
  · exact .inl ⟨h₁, if_pos h₁⟩
  rw [if_neg h₁]
  have h₁ : dur ≤ p.cnt + 1 := by omega
  cases h₂ : p.ph with
  | true => exact .inr (.inl ⟨h₁, rfl, by simp⟩)
  | false =>
    right; right
    by_cases h₃ : 0 < p.bitIdx
    · exact .inl ⟨h₁, rfl, h₃, by simp [h₃]⟩
    · have h₃' : p.bitIdx = 0 := by
        apply Fin.ext
        have h₄ : ¬ (0 : Nat) < p.bitIdx.val := h₃
        show p.bitIdx.val = 0
        omega
      by_cases h₅ : p.byteIdx < n - 1
      · exact .inr (.inl ⟨h₁, rfl, h₃', h₅, by simp [h₃', h₅]⟩)
      · exact .inr (.inr ⟨h₁, rfl, h₃', by omega, by simp [h₃', h₅]⟩)

/-- Everything a tick inside a frame can do (R147, R149). -/
theorem playTick_cases (c : Config) (b : Bool) (s : State) :
    (∃ p, advance c.frameBytes (partTicks (pulseSpec c) b s.pos.ph) s.pos = some p ∧
      playTick c b s = setSerializer true p (setTxDone false s)) ∨
    (advance c.frameBytes (partTicks (pulseSpec c) b s.pos.ph) s.pos = none ∧ playTick c b s = endFrame s) := by
  unfold playTick
  cases h : advance c.frameBytes (partTicks (pulseSpec c) b s.pos.ph) s.pos with
  | some p => exact .inl ⟨p, rfl, rfl⟩
  | none => exact .inr ⟨rfl, rfl⟩

theorem serPhase_idle (c : Config) {s : State} (ha : s.act = false) (hq : s.q = []) :
    serPhase c s = .next (setTxDone false s) := by simp [serPhase, ha, hq]

theorem serPhase_start (c : Config) {s : State} (ha : s.act = false) (hq : s.q ≠ []) :
    serPhase c s = .next (startFrame s) := by
  obtain ⟨f, rest, h⟩ := List.exists_cons_of_ne_nil hq
  simp [serPhase, ha, h]

theorem serPhase_play (c : Config) {s : State} {b : Bool} (ha : s.act = true) (hb : currentBit s = some b) :
    serPhase c s = .next (playTick c b s) := by
  unfold serPhase
  cases hq : s.q with
  | nil => simp [currentBit, hq] at hb
  | cons f rest => simp [ha, hb]

/-- Everything the serializer phase can do when it answers a next state (R147). -/
theorem serPhase_next {c : Config} {s t : State} (h : serPhase c s = .next t) :
    (s.act = false ∧ s.q = [] ∧ t = setTxDone false s) ∨
    (s.act = false ∧ s.q ≠ [] ∧ t = startFrame s) ∨
    (∃ b, s.act = true ∧ currentBit s = some b ∧ t = playTick c b s) := by
  unfold serPhase at h
  split at h
  · exact .inl ⟨‹_›, ‹_›, (Host.Outcome.next.inj h).symm⟩
  · exact .inr (.inl ⟨‹_›, by simp [*], (Host.Outcome.next.inj h).symm⟩)
  · cases h
  · split at h
    · exact .inr (.inr ⟨_, ‹_›, ‹_›, (Host.Outcome.next.inj h).symm⟩)
    · cases h

/-- The serializer phase answers a next state exactly when it finds the byte it is to play. -/
theorem serPhase_isNext_iff (c : Config) (s : State) :
    (∃ t, serPhase c s = .next t) ↔ (s.act = true → (currentBit s).isSome = true) := by
  constructor
  · rintro ⟨t, h⟩ ha
    rcases serPhase_next h with ⟨h₁, -⟩ | ⟨h₁, -⟩ | ⟨b, -, hb, -⟩
    · simp [ha] at h₁
    · simp [ha] at h₁
    · simp [hb]
  · intro h
    cases ha : s.act with
    | false =>
      by_cases hq : s.q = []
      · exact ⟨_, serPhase_idle c ha hq⟩
      · exact ⟨_, serPhase_start c ha hq⟩
    | true =>
      obtain ⟨b, hb⟩ := Option.isSome_iff_exists.1 (h ha)
      exact ⟨_, serPhase_play c ha hb⟩

/-- The bit being played, from the head frame and the byte the position points at (R146). -/
theorem currentBit_cons {s : State} {f : Frame} {rest : List Frame} {byte : Byte} (hq : s.q = f :: rest)
    (hb : f[s.pos.byteIdx]? = some byte) : currentBit s = some (byte.getLsbD s.pos.bitIdx) := by
  simp [currentBit, hq, hb]

/-- A frame pushed behind the head does not change the bit being played (R60, R151). -/
theorem currentBit_queuePush {s : State} (f : Frame) (h : s.q ≠ []) : currentBit (queuePush f s) = currentBit s := by
  obtain ⟨g, rest, hq⟩ := List.exists_cons_of_ne_nil h
  simp [currentBit, hq]

theorem ne_nil_of_currentBit {s : State} (h : (currentBit s).isSome = true) : s.q ≠ [] := by
  intro hq
  simp [currentBit, hq] at h

/-- What the serializer phase leaves alone, and the two things it can do to the queue (R145, R147). -/
theorem serPhase_frame {c : Config} {s t : State} (h : serPhase c s = .next t) :
    t.powerOn = s.powerOn ∧ t.lastColor = s.lastColor ∧ t.rspValid = s.rspValid ∧ t.rspStatus = s.rspStatus ∧
    t.inputs = s.inputs ∧
    ((t.txDone = false ∧ t.q = s.q) ∨ (t.txDone = true ∧ s.act = true ∧ s.q ≠ [] ∧ t.q = s.q.tail)) := by
  rcases serPhase_next h with ⟨h₁, h₂, rfl⟩ | ⟨h₁, h₂, rfl⟩ | ⟨b, h₁, h₂, rfl⟩
  · simp
  · simp [startFrame]
  · rcases playTick_cases c b s with ⟨p, -, g⟩ | ⟨-, g⟩ <;> rw [g]
    · simp
    · simp [endFrame, h₁, ne_nil_of_currentBit (s := s) (by simp [h₂])]

/-- The serializer phase reads the queue, `act` and the position only: with other values in the other elements it
does the same and carries them along (R147). -/
theorem serPhase_with {c : Config} {s u : State} (h : serPhase c s = .next u) (line : Bool) (col : Color)
    (done valid : Bool) (st : Status) (ins : List InputVec) :
    serPhase c { s with powerOn := line, lastColor := col, txDone := done, rspValid := valid, rspStatus := st,
                        inputs := ins } =
      .next { u with powerOn := line, lastColor := col, rspValid := valid, rspStatus := st, inputs := ins } := by
  rcases serPhase_next h with ⟨h₁, h₂, rfl⟩ | ⟨h₁, h₂, rfl⟩ | ⟨b, h₁, h₂, rfl⟩
  · exact serPhase_idle c h₁ h₂
  · exact serPhase_start c h₁ h₂
  · refine (serPhase_play c (b := b) (by exact h₁) (by exact h₂)).trans ?_
    unfold playTick
    dsimp only
    cases advance c.frameBytes (partTicks (pulseSpec c) b s.pos.ph) s.pos <;> rfl

/-! ### The command phases (R174, R175) -/

/-- Everything `DoColor` can do, in the order of its tests. -/
theorem doColor_cases (c : Config) (len : LenField) (data : DataField) (s : State) :
    (∃ e, decodeColor c data len = .error e ∧ doColor c len data s = (s, decodeStatus e)) ∨
    (∃ col, decodeColor c data len = .ok col ∧ c.queueDepth ≤ s.q.length ∧ doColor c len data s = (s, .busy)) ∨
    (∃ col, decodeColor c data len = .ok col ∧ s.q.length < c.queueDepth ∧
      doColor c len data s = (setLastColor col (queuePush (frameOf c col) s), .ok)) := by
  unfold doColor
  cases h : decodeColor c data len with
  | error e => exact .inl ⟨e, rfl, rfl⟩
  | ok col =>
    right
    by_cases hq : s.q.length < c.queueDepth
    · exact .inr ⟨col, rfl, hq, by simp [submit_of_lt _ hq]⟩
    · exact .inl ⟨col, rfl, by omega, by simp [submit_of_full _ hq]⟩

/-- Everything `DoPower` can do, in the order of its tests. -/
theorem doPower_cases (c : Config) (len : LenField) (data : DataField) (s : State) :
    (∃ e, decodePower data len = .error e ∧ doPower c len data s = (s, decodeStatus e)) ∨
    (decodePower data len = .ok false ∧ doPower c len data s = (setPowerLine false s, .ok)) ∨
    (decodePower data len = .ok true ∧ c.queueDepth ≤ s.q.length ∧
      doPower c len data s = (setPowerLine true s, .busy)) ∨
    (decodePower data len = .ok true ∧ s.q.length < c.queueDepth ∧
      doPower c len data s = (queuePush (frameOf c s.lastColor) (setPowerLine true s), .ok)) := by
  unfold doPower
  rcases h : decodePower data len with e | b
  · exact .inl ⟨e, rfl, rfl⟩
  · right
    cases b with
    | false => exact .inl ⟨rfl, rfl⟩
    | true =>
      right
      by_cases hq : s.q.length < c.queueDepth
      · exact .inr ⟨rfl, hq, by simp [submit_of_lt (s := setPowerLine true s) (frameOf c s.lastColor) hq]⟩
      · exact .inl ⟨rfl, by omega, by simp [submit_of_full (s := setPowerLine true s) (frameOf c s.lastColor) hq]⟩

end Sys2Proof.Machine
end

