-- ==== Sys2Proof/Laws/PerInstr.lean ====
section
/-! SUPPORT. Statements about every instruction, one lemma per constructor. -/

/-- The encoder's word of an operation carries the bits that the operation map fixes for its row (R72,
spec/opcode_table.json). -/
def Sys2Proof.Laws.EncodesItsRow.Statement (i : Sys2Proof.Instr) : Prop :=
  (Sys2Proof.rowOf i).selects (Sys2Proof.encode i) = true

namespace Sys2Proof

/-- Masking keeps the three top bits of a word whose other mask bits are 0. -/
theorem packInput_and_mask (rst valid char : Bool) (len : LenField) (data : DataField) :
    packInput rst valid char len data &&& 0x70000000000000000000000 = packInput rst valid char 0 0 := by
  have hmask : (0x70000000000000000000000 : InputVec) = packInput true true true 0 0 := by decide
  apply BitVec.eq_of_getLsbD_eq
  intro i _
  rw [hmask, BitVec.getLsbD_and]
  simp only [getLsbD_packInput]
  split <;> [simp; split] <;> [simp; split] <;> [simp; split] <;> simp

end Sys2Proof

theorem Sys2Proof.Laws.EncodesItsRow.reset : Sys2Proof.Laws.EncodesItsRow.Statement .reset := by
  show (_ == _) = true
  decide

theorem Sys2Proof.Laws.EncodesItsRow.nop : Sys2Proof.Laws.EncodesItsRow.Statement .nop := by
  show (_ == _) = true
  decide

theorem Sys2Proof.Laws.EncodesItsRow.setColor (len : Sys2Proof.LenField) (data : Sys2Proof.DataField) :
    Sys2Proof.Laws.EncodesItsRow.Statement (.setColor len data) := by
  simp only [Statement, rowOf, encode, OpcodeRow.selects, setColorRow, packInput_and_mask]
  decide

theorem Sys2Proof.Laws.EncodesItsRow.setPower (len : Sys2Proof.LenField) (data : Sys2Proof.DataField) :
    Sys2Proof.Laws.EncodesItsRow.Statement (.setPower len data) := by
  simp only [Statement, rowOf, encode, OpcodeRow.selects, setPowerRow, packInput_and_mask]
  decide
end

