-- ==== Sys2Proof/Laws/Step.lean ====
section
/-! SUPPORT. The arms of `exec` and `step`, and the machine as the block built at `params`. -/

namespace Sys2Proof.Machine

theorem exec_reset (s : State) : exec .reset s = .next { State.resetOf params with inputs := s.inputs } := rfl

theorem exec_nop (s : State) : exec .nop s = serPhase params (noResponse s) := rfl

theorem exec_setColor (len : LenField) (data : DataField) (s : State) :
    exec (.setColor len data) s = serPhase params (answered (doColor params len data s)) := rfl

theorem exec_setPower (len : LenField) (data : DataField) (s : State) :
    exec (.setPower len data) s = serPhase params (answered (doPower params len data s)) := rfl

/-- `exec` is the operation at the machine's own parameters. -/
theorem exec_eq_execOn (i : Instr) (s : State) : exec i s = execOn params i s := by cases i <;> rfl

/-- With nothing listed, the host presents nothing. -/
theorem nextInstr_of_nil {s : State} (h : s.inputs = []) : nextInstr s = .nop := by
  simp only [nextInstr, nextInput, h]
  decide

theorem nextInstr_of_cons {s : State} {v : InputVec} {rest : List InputVec} (h : s.inputs = v :: rest) :
    nextInstr s = decode v := by simp [nextInstr, nextInput, h]

/-- Everything an operation can do when it answers a next state: reset, or the serializer phase on what its command
phase left. -/
theorem execOn_next {c : Config} {i : Instr} {s t : State} (h : execOn c i s = .next t) :
    (i = .reset ∧ t = { State.resetOf c with inputs := s.inputs }) ∨
    (i = .nop ∧ serPhase c (noResponse s) = .next t) ∨
    (∃ len data, i = .setColor len data ∧ serPhase c (answered (doColor c len data s)) = .next t) ∨
    (∃ len data, i = .setPower len data ∧ serPhase c (answered (doPower c len data s)) = .next t) := by
  cases i with
  | reset => exact .inl ⟨rfl, (Host.Outcome.next.inj h).symm⟩
  | nop => exact .inr (.inl ⟨rfl, h⟩)
  | setColor len data => exact .inr (.inr (.inl ⟨len, data, rfl, h⟩))
  | setPower len data => exact .inr (.inr (.inr ⟨len, data, rfl, h⟩))

end Sys2Proof.Machine
end

