-- ==== Sys2Proof/Laws/Run.lean ====
section
/-! SUPPORT. What a command phase leaves, and one step at the front of a run. -/

namespace Sys2Proof.Machine

open Sys2Proof.Safety

/-! ### The command phases, with the frames they push -/

/-- What the command phase of `SET_COLOR` leaves (R174). -/
theorem answered_doColor (c : Config) (len : LenField) (data : DataField) (s r : State)
    (hr : r = answered (doColor c len data s)) :
    r.powerOn = s.powerOn ∧ r.q = s.q ++ pushedFrames c (.setColor len data) s ∧ r.act = s.act ∧ r.pos = s.pos ∧
    r.inputs = s.inputs ∧
    (r.rspStatus ≠ .ok → r.lastColor = s.lastColor ∧ pushedFrames c (.setColor len data) s = []) ∧
    (r.lastColor ≠ s.lastColor → r.rspStatus = .ok ∧ decodeColor c data len = .ok r.lastColor) := by
  subst hr
  rcases doColor_cases c len data s with ⟨e, h₁, h₂⟩ | ⟨col, h₁, h₃, h₂⟩ | ⟨col, h₁, h₃, h₂⟩ <;> rw [h₂] <;>
    simp [answered, pushedFrames, h₁]
  · exact h₃
  · exact h₃

/-- What the command phase of `SET_POWER` leaves (R175). -/
theorem answered_doPower (c : Config) (len : LenField) (data : DataField) (s r : State)
    (hr : r = answered (doPower c len data s)) :
    r.lastColor = s.lastColor ∧ r.q = s.q ++ pushedFrames c (.setPower len data) s ∧ r.act = s.act ∧
    r.pos = s.pos ∧ r.inputs = s.inputs ∧
    r.powerOn = (match decodePower data len with
      | .ok line => line
      | .error _ => s.powerOn) := by
  subst hr
  rcases doPower_cases c len data s with ⟨e, h₁, h₂⟩ | ⟨h₁, h₂⟩ | ⟨h₁, h₃, h₂⟩ | ⟨h₁, h₃, h₂⟩ <;> rw [h₂] <;>
    simp [answered, pushedFrames, h₁]
  · exact h₃
  · exact h₃

/-! ### Runs -/

theorem reaches_zero {s t : State} : Reaches 0 s t ↔ s = t :=
  ⟨Host.Outcome.next.inj, fun h => congrArg _ h⟩

/-- A run of `n + 1` ticks is a tick that does not stop, and a run of `n` ticks from what it leaves. -/
theorem reaches_succ {n : Nat} {s u : State} : Reaches (n + 1) s u ↔ ∃ t, step s = .next t ∧ Reaches n t u := by
  have e : Host.Core.step Sys2Proof.core s = step s := rfl
  simp only [Reaches, Host.Core.run, e]
  cases h : step s <;> simp

/-- One tick at the front of an observation. -/
theorem observe_succ {n : Nat} {s t : State} (h : step s = .next t) :
    observe (n + 1) s = outputs s :: observe n t := by rw [observe, h]

/-- One tick at the front of a count of completions. -/
theorem completionsIn_succ {n : Nat} {s t : State} (h : step s = .next t) :
    completionsIn (n + 1) s = (if t.txDone then 1 else 0) + completionsIn n t := by
  unfold completionsIn
  rw [observe_succ h, observe]
  simp only [List.drop_succ_cons, List.drop_zero, List.countP_cons]
  have : (outputs t).txDone = t.txDone := rfl
  rw [this]
  omega

/-- Every operation leaves the host's list alone. -/
theorem exec_inputs {i : Instr} {s t : State} (h : exec i s = .next t) : t.inputs = s.inputs := by
  rw [exec_eq_execOn] at h
  rcases execOn_next h with ⟨-, rfl⟩ | ⟨-, h⟩ | ⟨len, data, -, h⟩ | ⟨len, data, -, h⟩
  · rfl
  · exact (serPhase_frame h).2.2.2.2.1
  · exact (serPhase_frame h).2.2.2.2.1.trans (answered_doColor _ _ _ _ _ rfl).2.2.2.2.1
  · exact (serPhase_frame h).2.2.2.2.1.trans (answered_doPower _ _ _ _ _ rfl).2.2.2.2.1

/-- A tick takes one input vector off the host's list. -/
theorem step_inputs {s t : State} (h : step s = .next t) : t.inputs = s.inputs.tail := exec_inputs h

theorem inputAt_zero (s : State) : inputAt s 0 = nextInput s := by
  unfold inputAt nextInput
  cases s.inputs <;> rfl

theorem inputAt_succ {s t : State} (h : step s = .next t) (k : Nat) : inputAt t k = inputAt s (k + 1) := by
  unfold inputAt
  rw [step_inputs h]
  cases s.inputs <;> simp

/-- No reset in `n + 1` ticks: none in the first, none in the `n` after it. -/
theorem noResetFor_succ {n : Nat} {s t : State} (h : step s = .next t) (hn : NoResetFor (n + 1) s) :
    nextInstr s ≠ .reset ∧ NoResetFor n t := by
  refine ⟨?_, fun k hk => ?_⟩
  · have := hn 0 (by omega)
    rwa [inputAt_zero] at this
  · rw [inputAt_succ h]
    exact hn _ (by omega)

theorem pushedFrames_popInput (c : Config) (i : Instr) (s : State) :
    pushedFrames c i (popInput s) = pushedFrames c i s := by cases i <;> rfl

end Sys2Proof.Machine
end

