-- ==== Sys2Proof/Tests/Slice0.lean ====
section
/-! SUPPORT. The model's own tests: expected values from spec/95_test_vectors.md, and for every obligation with
hypotheses a concrete state and operands that meet them. -/

namespace Sys2Proof.Tests

open Sys2Proof.Machine Sys2Proof.Safety

/-! ### Helpers -/

/-- The test configuration TC-S (95_test_vectors.md section 0): one pixel, 5 MHz, black. -/
def tcs : Config := ⟨⟨1, 4, 1, 10, 5000000, ⟨0, 0, 0⟩, 0⟩, by decide⟩

/-- The parameters of the block with a rate filled in. -/
def someParams : Params := ⟨52, 4, 1, 10, 20000000, ⟨0, 0, 0⟩, 0⟩

/-- The next state of an outcome, if there is one. -/
def after : Result → Option State
  | .next t => some t
  | .fault _ => none
  | .refused _ => none

/-- TC-S playing the first of the frames `q` at position `p`. -/
def tcsAt (p : Position) (q : List Frame) : State := { State.resetOf tcs with q := q, act := true, pos := p }

/-- Full queue of the rows X1 to X8: the startup frame and three commanded colours, the last of them cached. -/
def tcsFull (p : Position) : State :=
  { tcsAt p [[0, 0, 0], [0, 1, 0], [0, 2, 0], [0, 3, 0]] with lastColor := ⟨3, 0, 0⟩ }

/-- The block at rest. -/
def rest : State := { State.reset with q := [] }

def blue : Color := ⟨0, 0, 255⟩

/-- The block with `n` frames outstanding, the first at position `p`. -/
def playing (n : Nat) (p : Position) : State :=
  { State.reset with q := List.replicate n (frameOf params blue), act := true, pos := p }

/-- The last tick of a frame of `blue`: bit 0 of its last byte (the blue channel, 0xFF), last low tick. -/
def lastTick : Position := ⟨155, 0, false, lowTicks (pulseSpec params) true - 1⟩

def presents (s : State) (v : InputVec) : State := { s with inputs := [v] }

/-- `COLOR "1,2,3"`, as `cmd_data`. -/
def data123 : DataField := 0x332C322C31

/-! ### Well-formedness -/

theorem test_parameters_accepted : someParams.problem = none := by decide
theorem test_no_pixel_refused : { someParams with pixelCount := 0 }.problem = some .noPixel := by decide
theorem test_no_queue_slot_refused : { someParams with queueDepth := 0 }.problem = some .noQueueSlot := by decide
theorem test_low_rate_refused : { someParams with resolutionHz := 1249999 }.problem = some .rateTooLow := by decide
theorem test_lowest_rate_accepted : { someParams with resolutionHz := 1250000 }.problem = none := by decide
theorem test_zero_length_refused : { someParams with minLen := 0 }.problem = some .zeroLengthAllowed := by decide
theorem test_empty_length_range_refused : { someParams with minLen := 11 }.problem = some .emptyLengthRange := by decide
theorem test_too_long_refused : { someParams with maxLen := 11 }.problem = some .longerThanPort := by decide

/-! ### Decoding: words written out from R71 and R72 -/

/-- O2: bit 90 alone decides. -/
theorem test_decode_reset : decode 0x7FFFFFFFFFFFFFFFFFFFFFF = .reset := by decide
/-- O4: `cmd_valid = 0`, the rest ignored. -/
theorem test_decode_nop : decode 0x1FFFFFFFFFFFFFFFFFFFFFF = .nop := by decide
/-- O5: `COLOR "255,0,128"`. -/
theorem test_decode_setColor : decode 0x209003832312C302C353532 = .setColor 9 0x3832312C302C353532 := by decide
/-- O6: `POWER "1"`. -/
theorem test_decode_setPower : decode 0x30100000000000000000031 = .setPower 1 0x31 := by decide
/-- The line `COLOR "255,0,128"` in the trace notation (R88) is that word. -/
theorem test_write_event :
    writeEvent false [0x32, 0x35, 0x35, 0x2C, 0x30, 0x2C, 0x31, 0x32, 0x38] = 0x209003832312C302C353532 := by decide
theorem test_padding_refused : decodeBytes (bytesOfNat 12 (2 ^ 91)) = .error .paddingSet := by decide
theorem test_short_input_refused : decodeBytes (bytesOfNat 11 0) = .error .tooFewBytes := by decide

/-! ### The decoder and the encoder -/

/-- DC2: both clamps. -/
theorem test_decodeColor_clamps :
    decodeColor params (dataOfBytes [0x2D, 0x31, 0x30, 0x2C, 0x33, 0x30, 0x30, 0x2C, 0x35, 0x30]) 10 =
      .ok ⟨0, 255, 50⟩ := by decide
/-- DC19: a sign without a digit. -/
theorem test_decodeColor_sign_without_digit :
    decodeColor params (dataOfBytes [0x31, 0x2C, 0x32, 0x2C, 0x2D]) 5 = .error .malformedPayload := by decide
/-- DC42: the declared length cuts the third integer. -/
theorem test_decodeColor_cut :
    decodeColor params (dataOfBytes [0x31, 0x2C, 0x32, 0x2C, 0x33, 0x34, 0x35]) 6 = .ok ⟨1, 2, 34⟩ := by decide
/-- W5: the number one is not the character '1'. -/
theorem test_decodePower_number_one : decodePower 0x01 1 = .ok false := by decide
/-- K10: halves are rounded up. -/
theorem test_ticks_half_up : pulseSpecAt 10000000 = ⟨4, 9, 8, 5⟩ := by decide
/-- E5. -/
theorem test_encode_bit_order : encodeFrame ⟨2, 4, 4, 2⟩ [0x32] =
    [(2, 4), (2, 4), (4, 2), (4, 2), (2, 4), (2, 4), (4, 2), (2, 4)] := by decide

/-! ### One step of each operation, at TC-S -/

/-- R171 with a full queue and a frame in flight: `RESET_STATE`. -/
theorem test_reset_mid_frame :
    after (execOn tcs .reset (tcsFull ⟨1, 3, false, 2⟩)) = some (State.resetOf tcs) := by decide

/-- Section 2.6, tick 6 to tick 7: the next bit. -/
theorem test_nop_next_bit :
    after (execOn tcs .nop (tcsAt ⟨0, 7, false, 3⟩ [[0, 0, 0]])) = some (tcsAt ⟨0, 6, true, 0⟩ [[0, 0, 0]]) := by decide

/-- Section 2.6, tick 144 to tick 145: the last tick of the frame. -/
theorem test_nop_end_of_frame :
    after (execOn tcs .nop (tcsAt ⟨2, 0, false, 3⟩ [[0, 0, 0]])) =
      some { State.resetOf tcs with q := [], txDone := true } := by decide

/-- P2, tick 200 to tick 201: a colour on an idle block. -/
theorem test_setColor_idle :
    after (execOn tcs (.setColor 9 0x3832312C302C353532) { State.resetOf tcs with q := [] }) =
      some { tcsAt ⟨0, 7, true, 0⟩ [[0, 255, 128]] with lastColor := ⟨255, 0, 128⟩, rspValid := true } := by decide

/-- P5, tick 144 to tick 145: `Busy` at the edge that pops the head (Q5). -/
theorem test_setColor_busy_at_last_tick :
    after (execOn tcs (.setColor 5 0x302C302C34) (tcsFull ⟨2, 0, false, 3⟩)) =
      some { tcsFull ⟨0, 7, true, 0⟩ with q := [[0, 1, 0], [0, 2, 0], [0, 3, 0]], txDone := true, rspValid := true,
                                          rspStatus := .busy } := by decide

/-- X7 and X8: a `Busy` on-command still raises the line. -/
theorem test_setPower_busy_raises_line :
    (after (execOn tcs (.setPower 1 0x31) { tcsFull ⟨0, 6, true, 0⟩ with powerOn := false })).map
      (fun t => (t.powerOn, t.rspStatus, t.q.length)) = some (true, .busy, 4) := by decide

/-- P4, tick 400 to tick 401: the cached colour is sent again. -/
theorem test_setPower_on_idle :
    after (execOn tcs (.setPower 1 0x31)
        { State.resetOf tcs with q := [], powerOn := false, lastColor := ⟨0, 255, 50⟩ }) =
      some { tcsAt ⟨0, 7, true, 0⟩ [[255, 0, 50]] with lastColor := ⟨0, 255, 50⟩, rspValid := true } := by decide

/-! ### The obligations' hypotheses can be met -/

/-- ResetStateHasTheSpecifiedValues, ResetReplacesEveryElement. -/
theorem test_meets_reset_input : rstOf (nextInput (presents rest 0x7FFFFFFFFFFFFFFFFFFFFFF)) = true := by decide

/-- StepRunsTheDecodedInput, clause by clause. -/
theorem test_meets_step_runs :
    (presents rest 0x30100000000000000000031).inputs = 0x30100000000000000000031 :: [] ∧ rest.inputs = [] ∧
    decodeTableWord 96 0x30100000000000000000031 = some (.setPower 1 0x31) ∧
    decodeTableWord 91 0x30100000000000000000031 = some (.setPower 1 0x31) := by decide

/-- DecodeOfEncodeIsTheInstruction. -/
theorem test_meets_wellFormed : Instr.WellFormed .reset ∧ Instr.WellFormed .nop ∧
    Instr.WellFormed (.setColor 255 data123) ∧ Instr.WellFormed (.setPower 0 0) := by decide

/-- IgnoredInputBitsDoNotMatter: pairs of different words that agree in the bits read: `RESET` and `NOP`. -/
theorem test_meets_ignored_reset_nop :
    (rstOf 0x7FFFFFFFFFFFFFFFFFFFFFF = true ∧ rstOf 0x40000000000000000000000 = true) ∧
    (rstOf 0x1FFFFFFFFFFFFFFFFFFFFFF = false ∧ cmdValidOf 0x1FFFFFFFFFFFFFFFFFFFFFF = false ∧
      rstOf 0 = false ∧ cmdValidOf 0 = false) := by decide

/-- IgnoredInputBitsDoNotMatter, `SET_COLOR` of length 1 (the boundary) and of length 0: `v` and `w` differ above. -/
theorem test_meets_ignored_color :
    let v : InputVec := packInput false true false 1 0x99999931
    let w : InputVec := packInput false true false 1 0x31
    v ≠ w ∧ rstOf v = false ∧ rstOf w = false ∧ cmdValidOf v = true ∧ cmdValidOf w = true ∧
    cmdCharOf v = false ∧ cmdCharOf w = false ∧ cmdLenOf v = cmdLenOf w ∧
    (∀ k < (cmdLenOf v).toNat, payloadByte (cmdDataOf v) k = payloadByte (cmdDataOf w) k) ∧
    (cmdLenOf (packInput false true false 0 1)).toNat = 0 := by decide

/-- IgnoredInputBitsDoNotMatter, `SET_POWER`. -/
theorem test_meets_ignored_power :
    let v : InputVec := packInput false true true 1 0x99999931
    let w : InputVec := packInput false true true 1 0x31
    v ≠ w ∧ cmdValidOf v = true ∧ cmdCharOf v = true ∧ cmdCharOf w = true ∧ (cmdLenOf v).toNat = 1 ∧
    (cmdLenOf w).toNat = 1 ∧ payloadByte (cmdDataOf v) 0 = payloadByte (cmdDataOf w) 0 := by decide

/-- WriteEventCarriesItsPayload: a value of 11 bytes, the shortest that does not fit. -/
theorem test_meets_long_write : 10 < (List.replicate 11 (0x30 : Byte)).length ∧
    0 < min (List.replicate 11 (0x30 : Byte)).length 10 := by decide

/-- ParseBufferIsThePayloadPaddedWithZeros, at both ends of the range of lengths. -/
theorem test_meets_parse_buffer :
    (1 ≤ 1 ∧ 1 ≤ 10 ∧ 0 < 1 ∧ 1 ≤ 1) ∧ (1 ≤ 10 ∧ 10 ≤ 10 ∧ 9 < 10) ∧
    (fillBuffer params data123 10).length = 11 := by decide

/-- ClampBringsAnIntegerToTheNearestBound: the values on both sides of each bound. -/
theorem test_meets_clamp : ((-1 : Int) < 0 ∧ clamp (-1) = 0) ∧ ((255 : Int) < 256 ∧ clamp 256 = 255) ∧
    (clamp 0 = 0 ∧ clamp 255 = 255) := by decide

/-- DecodeColorAcceptsExactlyTheGrammar: a text of the grammar, as `MatchesGrammar` reads it. -/
theorem test_meets_grammar : MatchesGrammar (fillBuffer params data123 5) ⟨false, [0x31]⟩ ⟨false, [0x32]⟩
    ⟨false, [0x33]⟩ [0, 0, 0, 0, 0, 0] := by
  refine ⟨by decide, by decide, by decide, by decide, ?_⟩
  intro b h
  cases h
  decide

/-- DecodeColorAcceptsExactlyTheGrammar, the two errors, at the lengths 0, 11, 1 and 10. -/
theorem test_meets_decodeColor_errors :
    decodeColor params data123 0 = .error .invalidLength ∧ decodeColor params data123 11 = .error .invalidLength ∧
    decodeColor params data123 1 = .error .malformedPayload ∧ decodeColor params 0 10 = .error .malformedPayload := by
  decide

/-- ScannedIntegersStayInRange, ClampBringsAnIntegerToTheNearestBound (its second clause): DC10 and DC11, the two
extremes, at the length 10. -/
theorem test_meets_scan_range :
    scanTriplet (fillBuffer params (dataOfBytes [0x39, 0x39, 0x39, 0x39, 0x39, 0x39, 0x2C, 0x30, 0x2C, 0x30]) 10) =
      some (999999, 0, 0) ∧
    scanTriplet (fillBuffer params (dataOfBytes [0x2D, 0x39, 0x39, 0x39, 0x39, 0x39, 0x2C, 0x30, 0x2C, 0x30]) 10) =
      some (-99999, 0, 0) := by decide

/-- CommandableColorsHaveAtMostEightDigits: DC35 has eight digits, DC29 nine. -/
theorem test_meets_eight_digits :
    decodeColor params (dataOfBytes [0x31, 0x30, 0x30, 0x2C, 0x31, 0x30, 0x30, 0x2C, 0x31, 0x30]) 10 =
      .ok ⟨100, 100, 10⟩ ∧
    decimalDigits 100 + decimalDigits 100 + decimalDigits 10 = 8 ∧
    decimalDigits 255 + decimalDigits 255 + decimalDigits 255 = 9 := by decide

/-- DecodePowerReadsOneByte: lengths 0 and 2, and the byte on either side. -/
theorem test_meets_decodePower : (0 : LenField).toNat ≠ 1 ∧ (2 : LenField).toNat ≠ 1 ∧ (1 : LenField).toNat = 1 ∧
    payloadByte 0x9931 0 = 0x31 ∧ payloadByte 0x30 0 ≠ 0x31 ∧ payloadByte 0x32 0 ≠ 0x31 := by decide

/-- ValidRatesAreExactlyFrom1250000: one below the bound. -/
theorem test_meets_low_rate : { someParams with resolutionHz := 1249999 }.resolutionHz < 1250000 := by decide

/-- FrameBroadcastsOneColorInWireOrder, FrameDeterminesItsColor: the last pixel exists, and equal frames. -/
theorem test_meets_frame : 51 < params.pixelCount ∧ frameOf params blue = frameOf params ⟨0, 0, 255⟩ := by decide

/-- EncodeEmitsTheSymbolOfEveryBit: the last byte of a frame. -/
theorem test_meets_encode : ([0x80, 0x01] : Frame)[1]? = some 0x01 := by decide

/-- NopRunsTheSerializerPhase, the idle cases. -/
theorem test_meets_nop_idle : (rest.act = false ∧ rest.q = []) ∧ (State.reset.act = false ∧ State.reset.q ≠ []) := by
  decide

/-- NopRunsTheSerializerPhase, a frame in flight: the first byte and the last byte of the frame exist. -/
theorem test_meets_nop_playing :
    ((playing 2 Position.start).act = true ∧ (playing 2 Position.start).q = frameOf params blue :: [frameOf params blue] ∧
      (frameOf params blue)[0]? = some 0) ∧
    ((playing 1 lastTick).act = true ∧ (playing 1 lastTick).q = frameOf params blue :: [] ∧
      (frameOf params blue)[155]? = some 255) := by decide

/-- The part a tick of `NopRunsTheSerializerPhase` compares `cnt + 1` with: `lastTick` is the last tick of its part. -/
theorem test_meets_nop_last_tick : ¬ lastTick.cnt + 1 < lowTicks (pulseSpec params) true ∧ lastTick.ph = false ∧
    ¬ 0 < lastTick.bitIdx.val ∧ ¬ lastTick.byteIdx < params.frameBytes - 1 := by
  have h := partTicks_pos params true false
  rw [partTicks_low] at h
  refine ⟨?_, rfl, by decide, by decide⟩
  show ¬ lowTicks (pulseSpec params) true - 1 + 1 < lowTicks (pulseSpec params) true
  omega

/-- Playable: at rest, and with a frame in flight (SetColorFollowsItsRule, SetPowerFollowsItsRule,
OnlyAMissingFrameByteStopsTheMachine). -/
theorem test_meets_playable : Playable rest ∧ Playable (playing 4 Position.start) ∧ Playable (playing 4 lastTick) :=
  ⟨by decide, fun _ => by decide, fun _ => by decide⟩

/-- SetColorFollowsItsRule: one operand for each outcome, the queue full and one short of full. -/
theorem test_meets_setColor :
    decodeColor params data123 11 = .error .invalidLength ∧ decodeColor params 0 1 = .error .malformedPayload ∧
    decodeColor params data123 5 = .ok ⟨1, 2, 3⟩ ∧ params.queueDepth ≤ (playing 4 Position.start).q.length ∧
    (playing 3 Position.start).q.length < params.queueDepth := by decide

/-- SetPowerFollowsItsRule: one operand for each outcome. -/
theorem test_meets_setPower :
    decodePower 0x31 0 = .error .invalidLength ∧ decodePower 0x78 1 = .ok false ∧ decodePower 0x31 1 = .ok true := by
  decide

/-- CommandPhaseRunsBeforeSerializerPhase (a): the last tick of a frame with the queue full. -/
theorem test_meets_last_tick : AtLastTick params (playing 4 lastTick) ∧
    (playing 4 lastTick).q.length = params.queueDepth :=
  ⟨⟨rfl, rfl, rfl, rfl, true, by decide, by
    show lowTicks (pulseSpec params) true ≤ lowTicks (pulseSpec params) true - 1 + 1
    omega⟩, rfl⟩

/-- OnlyAMissingFrameByteStopsTheMachine: states that no run reaches, with and without a head frame; a colour command
that pushes into an empty queue, the byte there and not there; and one that pushes nothing. -/
theorem test_meets_missing_byte :
    ((playing 0 Position.start).act = true ∧ (playing 0 Position.start).q = []) ∧
    ((playing 1 ⟨156, 7, true, 0⟩).q = frameOf params blue :: [] ∧ (frameOf params blue).length ≤ 156) ∧
    (pushedFrames params (.setColor 5 data123) (playing 0 Position.start) = [frameOf params ⟨1, 2, 3⟩] ∧
      (playing 0 Position.start).pos.byteIdx < (frameOf params ⟨1, 2, 3⟩).length ∧
      (frameOf params ⟨1, 2, 3⟩).length ≤ (playing 0 ⟨156, 7, true, 0⟩).pos.byteIdx) ∧
    pushedFrames params (.setColor 0 data123) (playing 0 Position.start) = [] ∧
    Instr.nop ≠ Instr.reset ∧ Instr.setColor 5 data123 ≠ Instr.reset :=
  ⟨⟨rfl, rfl⟩, ⟨rfl, Nat.le_of_eq (frameOf_length params blue)⟩,
    ⟨rfl, by rw [frameOf_length]; decide, by rw [frameOf_length]; exact Nat.le_refl 156⟩, rfl, by decide, by decide⟩

/-- Every operation answers a next state somewhere: StatusesHaveTheirCausesInPriorityOrder,
OperationsLeaveOtherElementsAlone, QueueMovesOnlyAtItsEnds, ColorCommandsIgnoreThePowerLine. -/
theorem test_meets_exec_next :
    (after (exec .reset rest)).isSome ∧ (after (exec .nop rest)).isSome ∧
    (after (exec (.setColor 5 data123) rest)).isSome ∧ (after (exec (.setPower 1 0x31) rest)).isSome :=
  ⟨rfl, rfl, rfl, rfl⟩

/-- FailingCommandsLeaveWhatANopLeaves: a rejected colour command, a rejected power command, and an on-command that
is `Busy`. -/
theorem test_meets_failing :
    (after (exec (.setColor 11 data123) rest)).map (fun t => t.rspStatus) = some .invalidLength ∧
    (after (exec (.setPower 2 0x3131) rest)).map (fun t => t.rspStatus) = some .invalidLength ∧
    ∃ t, exec (.setPower 1 0x31) (playing 4 Position.start) = .next t ∧ t.rspStatus = .busy := by
  obtain ⟨t, h⟩ := (serPhase_isNext_iff params (answered (doPower params 1 0x31 (playing 4 Position.start)))).2
    fun _ => by decide
  exact ⟨rfl, rfl, t, h, (serPhase_frame h).2.2.2.1⟩

/-- QueueMovesOnlyAtItsEnds, its last clause: a `NOP` at the last tick of a frame answers with `tx_done` up. -/
theorem test_meets_pop : ∃ t, exec .nop (playing 2 lastTick) = .next t ∧ t.txDone = true := by
  refine ⟨_, serPhase_play params (s := noResponse (playing 2 lastTick)) (b := true) rfl (by decide), ?_⟩
  rcases playTick_cases params true (noResponse (playing 2 lastTick)) with ⟨p, h, -⟩ | ⟨-, h⟩
  · rcases advance_cases params.frameBytes (partTicks (pulseSpec params) true lastTick.ph) lastTick with
      ⟨h₁, -⟩ | ⟨-, h₁, -⟩ | ⟨-, -, h₁, -⟩ | ⟨-, -, -, h₁, -⟩ | ⟨-, -, -, -, h₁⟩
    · have h₂ : lowTicks (pulseSpec params) true - 1 + 1 < lowTicks (pulseSpec params) true := h₁
      have h₃ := partTicks_pos params true false
      rw [partTicks_low] at h₃
      omega
    · cases h₁
    · exact absurd h₁ (by decide)
    · exact absurd h₁ (by decide)
    · have h₂ : some p = none := h.symm.trans h₁
      cases h₂
  · rw [h]
    rfl

/-- OnlyAcceptedColorsReachTheCache, its second clause: operations that are no on-command, an off-command among
them. -/
theorem test_meets_no_on_command : decodePower 0x30 1 ≠ .ok true ∧ decodePower 0x31 0 ≠ .ok true := by decide

/-- OnlyResetAltersTheFrameInFlight: both an operation and a `NOP` answer from a state with a frame in flight. -/
theorem test_meets_in_flight : (playing 1 Position.start).act = true ∧
    ∃ t u, exec (.setColor 5 data123) (playing 1 Position.start) = .next t ∧
      exec .nop (playing 1 Position.start) = .next u :=
  ⟨rfl, _, _, rfl, rfl⟩

/-- ResponseRegistersFollowTheTick, OnlyAcceptedColorsReachTheCache, OnlyDecodedPowerCommandsDriveThePowerLine: one
input vector of each kind, and a step that answers. -/
theorem test_meets_tick_inputs :
    nextInstr (presents rest 0x40000000000000000000000) = .reset ∧ nextInstr rest = .nop ∧
    nextInstr (presents rest 0x205000000332C322C31) = .nop ∧
    nextInstr (presents rest 0x2050000000000332C322C31) = .setColor 5 data123 ∧
    nextInstr (presents rest 0x30100000000000000000030) = .setPower 1 0x30 ∧
    (after (step (presents rest 0x30100000000000000000030))).map (fun t => t.powerOn) = some false ∧
    (after (step (presents rest 0x2050000000000332C322C31))).map (fun t => t.lastColor) = some ⟨1, 2, 3⟩ := by decide

/-- RejectedCommandsActLikeNops: a run of one rejected colour command and one rejected power command. -/
theorem test_meets_rejected :
    Rejected params (.setColor 11 data123) ∧ Rejected params (.setPower 2 0x3131) ∧
    ∃ t, Reaches 1 (presents rest (encode (.setColor 11 data123))) t :=
  ⟨.inl ⟨11, data123, .invalidLength, rfl, by decide⟩, .inr ⟨2, 0x3131, .invalidLength, rfl, by decide⟩,
    _, reaches_succ.2 ⟨_, rfl, rfl⟩⟩

/-- `Inv` holds at a state with four frames in flight, at its start: StepKeepsTheInvariant,
EveryConfigurationStepsForever, OutstandingFramesPlayBackToBack, SilentBlockComesToRest. -/
theorem test_meets_inv : Inv params (playing 4 Position.start) ∧ (playing 4 Position.start).inputs = [] ∧
    (playing 4 Position.start).act = true ∧ (playing 4 Position.start).pos = Position.start :=
  ⟨⟨by decide, fun f hf => ⟨blue, by simpa [playing] using hf⟩, fun _ => by decide, fun h => (nomatch h),
    fun h => (nomatch h), by decide, fun b _ _ => partTicks_pos params b true, fun h => (nomatch h)⟩, rfl, rfl, rfl⟩

/-- StepKeepsTheInvariant, CompletionsAreNeverAdjacent: a state with the completion flag up, that meets `Inv`. -/
theorem test_meets_done : Inv params { rest with txDone := true } ∧
    ∃ t, step { rest with txDone := true } = .next t :=
  ⟨⟨by decide, fun f hf => (List.not_mem_nil hf).elim, fun h => (nomatch h), fun _ => .inl rfl, fun _ => rfl, by decide,
    fun b _ _ => partTicks_pos params b true, fun _ => rfl⟩, _, rfl⟩

/-- FrameInFlightPlaysItsWaveform: a frame at its first tick, with a host that never resets. -/
theorem test_meets_first_tick : AtFirstTick (playing 1 Position.start) (frameOf params blue) ∧
    (frameOf params blue).length = params.frameBytes ∧
    NoResetFor (duration (pulseSpec params) (frameOf params blue)) (playing 1 Position.start) :=
  ⟨⟨rfl, rfl, rfl⟩, frameOf_length _ _, fun k _ => by
    show decode (([] : List InputVec).getD k silentInput) ≠ .reset
    rw [List.getD_nil]
    decide⟩

/-- FramesLeaveInPushOrder: two commands from rest. -/
theorem test_meets_push_order :
    NoResetFor 1 (presents rest 0x2050000000000332C322C31) ∧
    ∃ t, Reaches 1 (presents rest 0x2050000000000332C322C31) t :=
  ⟨by decide, _, reaches_succ.2 ⟨_, rfl, rfl⟩⟩

/-- PowerIsHighBeforeTheStartupFrame: reset held for two ticks, then a tick without it. -/
theorem test_meets_held_reset :
    (∀ k < 2, rstOf ([packInput true false false 0 0, packInput true true true 0 0].getD k silentInput) = true) ∧
    IsResetState params State.reset ∧ rstOf (nextInput State.reset) = false :=
  ⟨by decide, rfl, by decide⟩

/-- StartupFramePlaysOnceAfterReset: the reset state with nothing listed for every number of ticks (so for every
clause), and with a listed `NOP` whose other bits are set. -/
theorem test_meets_startup : (∀ n, ∀ k < n, decode (inputAt State.reset k) = .nop) ∧
    IsResetState params (presents State.reset 0x1FFFFFFFFFFFFFFFFFFFFFF) ∧
    ∀ k < 1, decode (inputAt (presents State.reset 0x1FFFFFFFFFFFFFFFFFFFFFF) k) = .nop :=
  ⟨fun n k _ => by
    show decode (([] : List InputVec).getD k silentInput) = .nop
    rw [List.getD_nil]
    decide, rfl, by decide⟩

/-- DutifulHostNeverSeesBusy: one colour from rest, `RESET_TICKS` ticks after the last completion. -/
theorem test_meets_duty :
    (presents rest 0x2050000000000332C322C31).q.length ≤ 1 ∧
    KeepsDuty params 1 params.resetTicks (presents rest 0x2050000000000332C322C31) ∧
    ∃ t, Reaches 1 (presents rest 0x2050000000000332C322C31) t :=
  ⟨by decide, ⟨by decide, fun _ => ⟨rfl, Nat.le_refl _⟩, fun _ _ => trivial⟩, _, reaches_succ.2 ⟨_, rfl, rfl⟩⟩

end Sys2Proof.Tests
end

section
/-! The tick as a command phase and the serializer phase behind it (R170), stated once for every operation but
`RESET`, at every configuration. -/

namespace Sys2Proof.Machine

open Sys2Proof.Safety

/-! ### The command phase -/

/-- What the command phase of an operation leaves for the serializer phase (R170). `RESET` has no command phase
(R171): here it leaves the state as it is, as it pushes no frame in `pushedFrames`. -/
def commandPhase (c : Config) (i : Instr) (s : State) : State :=
  match i with
  | .reset => s
  | .nop => noResponse s
  | .setColor len data => answered (doColor c len data s)
  | .setPower len data => answered (doPower c len data s)

/-- Every operation but `RESET` is its command phase, then the serializer phase (R170). -/
theorem execOn_of_ne_reset {c : Config} {i : Instr} {s : State} (hi : i ≠ .reset) :
    execOn c i s = serPhase c (commandPhase c i s) := by
  cases i with
  | reset => exact absurd rfl hi
  | nop | setColor | setPower => rfl

/-- A command phase does to the queue what `pushedFrames` says (R174, R175). -/
@[simp] theorem commandPhase_q (c : Config) (i : Instr) (s : State) :
    (commandPhase c i s).q = s.q ++ pushedFrames c i s := by
  cases i with
  | reset | nop => exact (List.append_nil _).symm
  | setColor len data => exact (answered_doColor c len data s _ rfl).2.1
  | setPower len data => exact (answered_doPower c len data s _ rfl).2.1

@[simp] theorem commandPhase_act (c : Config) (i : Instr) (s : State) : (commandPhase c i s).act = s.act := by
  cases i with
  | reset | nop => rfl
  | setColor len data => exact (answered_doColor c len data s _ rfl).2.2.1
  | setPower len data => exact (answered_doPower c len data s _ rfl).2.2.1

@[simp] theorem commandPhase_pos (c : Config) (i : Instr) (s : State) : (commandPhase c i s).pos = s.pos := by
  cases i with
  | reset | nop => rfl
  | setColor len data => exact (answered_doColor c len data s _ rfl).2.2.2.1
  | setPower len data => exact (answered_doPower c len data s _ rfl).2.2.2.1

/-- An operation pushes nothing, or one broadcast frame into a free slot (R143). -/
theorem pushedFrames_cases (c : Config) (i : Instr) (s : State) :
    pushedFrames c i s = [] ∨ s.q.length < c.queueDepth ∧ ∃ col, pushedFrames c i s = [frameOf c col] := by
  cases i with
  | reset | nop => exact .inl rfl
  | setColor len data =>
    rcases hd : decodeColor c data len with e | col
    · exact .inl (by simp [pushedFrames, hd])
    · by_cases hq : s.q.length < c.queueDepth <;> simp [pushedFrames, hd, hq]
  | setPower len data =>
    rcases hd : decodePower data len with e | _ | _
    · exact .inl (by simp [pushedFrames, hd])
    · exact .inl (by simp [pushedFrames, hd])
    · by_cases hq : s.q.length < c.queueDepth <;> simp [pushedFrames, hd, hq]

/-! ### The registers a step leaves -/

/-- A step without reset is the command phase of its operation, then the serializer phase (R170). -/
theorem step_of_ne_reset {s : State} (hi : nextInstr s ≠ .reset) :
    step s = serPhase params (commandPhase params (nextInstr s) (popInput s)) :=
  (exec_eq_execOn _ _).trans (execOn_of_ne_reset hi)

/-- A step with reset leaves the reset values (R171). -/
theorem eq_reset_of_step {s t : State} (h : step s = .next t) (hi : nextInstr s = .reset) :
    t = { State.resetOf params with inputs := s.inputs.tail } := by
  rw [step, hi] at h
  exact (Host.Outcome.next.inj h).symm

/-- The registers that only the command phase writes: a step leaves them as that phase did (R147). -/
theorem step_registers {s t : State} (h : step s = .next t) (hi : nextInstr s ≠ .reset) :
    t.powerOn = (commandPhase params (nextInstr s) (popInput s)).powerOn ∧
    t.lastColor = (commandPhase params (nextInstr s) (popInput s)).lastColor ∧
    t.rspValid = (commandPhase params (nextInstr s) (popInput s)).rspValid ∧
    t.rspStatus = (commandPhase params (nextInstr s) (popInput s)).rspStatus := by
  rw [step_of_ne_reset hi] at h
  obtain ⟨hpower, hcolor, hvalid, hstatus, -⟩ := serPhase_frame h
  exact ⟨hpower, hcolor, hvalid, hstatus⟩

end Sys2Proof.Machine
end

section
/-! The invariants of R24, R26 and R152 are kept by every operation at every configuration, and where they hold no step
is refused. -/

namespace Sys2Proof.Machine

open Sys2Proof.Safety

/-! ### What the serializer phase needs -/

/-- The part of `Inv` that a command phase keeps. The rest speaks of the ends of a tick only: between the two phases an
idle serializer may have a frame waiting, and `tx_done` is still that of the tick before. -/
structure PlayReady (c : Config) (s : State) : Prop where
  queueBound : s.q.length ≤ c.queueDepth
  framesBroadcast : ∀ f ∈ s.q, ∃ col, f = frameOf c col
  actHasFrame : s.act = true → s.q ≠ []
  idlePosition : s.act = false → s.pos = Position.start
  byteInFrame : s.pos.byteIdx < c.frameBytes
  countInPart : ∀ b, s.act = true → currentBit s = some b → s.pos.cnt < partTicks (pulseSpec c) b s.pos.ph

variable {c : Config} {s : State}

theorem playReady_of_inv (h : Inv c s) : PlayReady c s :=
  ⟨h.queueBound, h.framesBroadcast, h.actHasFrame, h.idlePosition, h.byteInFrame, h.countInPart⟩

/-- What a tick takes off the host's list is nothing to the serializer. -/
theorem playReady_popInput (h : PlayReady c s) : PlayReady c (popInput s) :=
  ⟨h.queueBound, h.framesBroadcast, h.actHasFrame, h.idlePosition, h.byteInFrame, h.countInPart⟩

/-- Frames pushed behind the head do not change the bit being played (R60, R151). -/
theorem currentBit_commandPhase (i : Instr) (hq : s.q ≠ []) : currentBit (commandPhase c i s) = currentBit s := by
  obtain ⟨f, rest, hq⟩ := List.exists_cons_of_ne_nil hq
  simp [currentBit, hq]

theorem playReady_commandPhase (i : Instr) (h : PlayReady c s) : PlayReady c (commandPhase c i s) where
  queueBound := by
    have := h.queueBound
    rcases pushedFrames_cases c i s with hp | ⟨hlt, col, hp⟩ <;> simp [hp] <;> omega
  framesBroadcast f hf := by
    rw [commandPhase_q, List.mem_append] at hf
    rcases hf with hf | hf
    · exact h.framesBroadcast f hf
    · rcases pushedFrames_cases c i s with hp | ⟨-, col, hp⟩
      · simp [hp] at hf
      · exact ⟨col, by simpa [hp] using hf⟩
  actHasFrame ha := by
    rw [commandPhase_act] at ha
    simp [h.actHasFrame ha]
  idlePosition := by simpa using h.idlePosition
  byteInFrame := by simpa using h.byteInFrame
  countInPart b ha hb := by
    rw [commandPhase_act] at ha
    rw [currentBit_commandPhase i (h.actHasFrame ha)] at hb
    simpa using h.countInPart b ha hb

/-- While a frame is played the byte at the position exists, since every frame is `FRAME_BYTES` long (R147, U10). -/
theorem currentBit_of_playReady (h : PlayReady c s) (ha : s.act = true) : ∃ b, currentBit s = some b := by
  obtain ⟨f, rest, hq⟩ := List.exists_cons_of_ne_nil (h.actHasFrame ha)
  obtain ⟨col, rfl⟩ := h.framesBroadcast f (by simp [hq])
  have hlt : s.pos.byteIdx < (frameOf c col).length := by simpa using h.byteInFrame
  exact ⟨_, currentBit_cons hq (List.getElem?_eq_getElem hlt)⟩

/-! ### The serializer phase establishes the invariants -/

/-- At the first position the clauses about the position hold by themselves. -/
theorem inv_of_start (hpos : s.pos = Position.start) (hlen : s.q.length ≤ c.queueDepth)
    (hframes : ∀ f ∈ s.q, ∃ col, f = frameOf c col) (hact : s.act = true → s.q ≠ [])
    (hidle : s.act = false → s.q = [] ∨ IsResetState c s) : Inv c s where
  queueBound := hlen
  framesBroadcast := hframes
  actHasFrame := hact
  idleEmpty := hidle
  idlePosition _ := hpos
  byteInFrame := by
    have := frameBytes_pos c
    rw [hpos, start_byteIdx]
    omega
  countInPart b _ _ := by
    rw [hpos]
    exact partTicks_pos c b true
  doneAtStart _ := hpos

theorem inv_reset (c : Config) (inputs : List InputVec) : Inv c { State.resetOf c with inputs := inputs } :=
  inv_of_start rfl c.valid.2.1 (fun f hf => ⟨c.defaultColor, by simpa using hf⟩) (fun ha => nomatch ha)
    (fun _ => .inr rfl)

/-- The walk stays inside the frame, and its count inside the part it is in (R152). -/
theorem advance_inside {n dur : Nat} {p p' : Position} (h : advance n dur p = some p') (hp : p.byteIdx < n) :
    p'.byteIdx < n ∧ (p'.cnt = 0 ∨ p' = { p with cnt := p.cnt + 1 } ∧ p.cnt + 1 < dur) := by
  rcases advance_cases n dur p with ⟨hdur, e⟩ | ⟨-, -, e⟩ | ⟨-, -, -, e⟩ | ⟨-, -, -, hbyte, e⟩ | ⟨-, -, -, -, e⟩ <;>
    rw [e] at h <;> cases h
  · exact ⟨hp, .inr ⟨rfl, hdur⟩⟩
  · exact ⟨hp, .inl rfl⟩
  · exact ⟨hp, .inl rfl⟩
  · exact ⟨by dsimp only; omega, .inl rfl⟩

/-- A tick that goes on inside the frame. -/
theorem inv_advance {b : Bool} {p : Position} (h : PlayReady c s) (ha : s.act = true) (hb : currentBit s = some b)
    (hp : advance c.frameBytes (partTicks (pulseSpec c) b s.pos.ph) s.pos = some p) :
    Inv c (setSerializer true p (setTxDone false s)) := by
  obtain ⟨hbyte, hcnt⟩ := advance_inside hp h.byteInFrame
  refine ⟨h.queueBound, h.framesBroadcast, fun _ => h.actHasFrame ha, fun hf => (nomatch hf), fun hf => (nomatch hf),
    hbyte, fun b' _ hb' => ?_, fun hf => (nomatch hf)⟩
  rcases hcnt with hzero | ⟨rfl, hlt⟩
  · have := partTicks_pos c b' p.ph
    simp only [setSerializer_pos, hzero]
    omega
  · have hsame : some b = some b' := hb.symm.trans hb'
    cases hsame
    exact hlt

/-- The end of a frame: the queue is shorter, and `act` stays 1 exactly when a frame is left (R149). -/
theorem inv_endFrame (h : PlayReady c s) : Inv c (endFrame s) := by
  refine inv_of_start rfl ?_ (fun f hf => h.framesBroadcast f (List.mem_of_mem_tail hf)) ?_ ?_
  · have := h.queueBound
    simp only [endFrame, setSerializer_q, setTxDone_q, queuePop_q, List.length_tail]
    omega
  · simp [endFrame]
  · intro hidle
    left
    simpa [endFrame] using hidle

/-- From what a command phase leaves the serializer phase is never refused, and the tick ends in a state that meets
the invariants (R147). -/
theorem serPhase_inv (h : PlayReady c s) : ∃ t, serPhase c s = .next t ∧ Inv c t := by
  cases ha : s.act with
  | false =>
    by_cases hq : s.q = []
    · exact ⟨_, serPhase_idle c ha hq, inv_of_start (h.idlePosition ha) h.queueBound h.framesBroadcast h.actHasFrame
        fun _ => .inl hq⟩
    · exact ⟨_, serPhase_start c ha hq, inv_of_start rfl h.queueBound h.framesBroadcast (fun _ => hq)
        fun hf => nomatch hf⟩
  | true =>
    obtain ⟨b, hb⟩ := currentBit_of_playReady h ha
    refine ⟨_, serPhase_play c ha hb, ?_⟩
    rcases playTick_cases c b s with ⟨p, hp, e⟩ | ⟨-, e⟩ <;> rw [e]
    · exact inv_advance h ha hb hp
    · exact inv_endFrame h

/-! ### Operations, steps and runs -/

/-- Every operation completes and ends in a state that meets the invariants. -/
theorem execOn_inv (i : Instr) (h : PlayReady c s) : ∃ t, execOn c i s = .next t ∧ Inv c t := by
  by_cases hi : i = .reset
  · subst hi
    exact ⟨_, rfl, inv_reset c s.inputs⟩
  · rw [execOn_of_ne_reset hi]
    exact serPhase_inv (playReady_commandPhase i h)

/-- A step from a state that meets the invariants completes and keeps them. -/
theorem stepOn_inv (h : Inv c s) : ∃ t, stepOn c s = .next t ∧ Inv c t :=
  execOn_inv _ (playReady_popInput (playReady_of_inv h))

/-- A run of the configured block that begins with a step that does not stop. -/
theorem runOn_succ {t : State} (n : Nat) (h : stepOn c s = .next t) :
    Host.Core.run (coreOn c) (n + 1) s = Host.Core.run (coreOn c) n t := by
  have e : Host.Core.step (coreOn c) s = .next t := h
  simp only [Host.Core.run, e]

/-- Settles O41, by induction on the number of ticks: each is a step that completes and keeps the invariants. -/
theorem everyConfigurationStepsForever : Obligations.EveryConfigurationStepsForever := by
  intro c s hinv n
  induction n generalizing s with
  | zero => exact ⟨s, rfl, hinv⟩
  | succ n ih =>
    obtain ⟨t, hstep, ht⟩ := stepOn_inv hinv
    rw [runOn_succ n hstep]
    exact ih t ht

end Sys2Proof.Machine
end

section
/-! Who writes and who reads `last_color` (R21) and `power_on` (R22). -/

namespace Sys2Proof.Machine

variable {c : Config} {s t : State}

/-! ### What the two commands do, one equation per outcome (R174, R175) -/

theorem doColor_of_error {len : LenField} {data : DataField} {e : DecodeError} (h : decodeColor c data len = .error e) :
    doColor c len data s = (s, decodeStatus e) := by simp [doColor, h]

theorem doColor_of_full {len : LenField} {data : DataField} {col : Color} (h : decodeColor c data len = .ok col)
    (hq : c.queueDepth ≤ s.q.length) : doColor c len data s = (s, .busy) := by
  simp [doColor, h, submit_of_full (frameOf c col) (Nat.not_lt.2 hq)]

theorem doColor_of_free {len : LenField} {data : DataField} {col : Color} (h : decodeColor c data len = .ok col)
    (hq : s.q.length < c.queueDepth) :
    doColor c len data s = (setLastColor col (queuePush (frameOf c col) s), .ok) := by
  simp [doColor, h, submit_of_lt (frameOf c col) hq]

theorem doPower_of_error {len : LenField} {data : DataField} {e : DecodeError} (h : decodePower data len = .error e) :
    doPower c len data s = (s, decodeStatus e) := by simp [doPower, h]

theorem doPower_of_off {len : LenField} {data : DataField} (h : decodePower data len = .ok false) :
    doPower c len data s = (setPowerLine false s, .ok) := by simp [doPower, h]

theorem doPower_of_full {len : LenField} {data : DataField} (h : decodePower data len = .ok true)
    (hq : c.queueDepth ≤ s.q.length) : doPower c len data s = (setPowerLine true s, .busy) := by
  simp [doPower, h, submit_of_full (s := setPowerLine true s) (frameOf c s.lastColor) (Nat.not_lt.2 hq)]

theorem doPower_of_free {len : LenField} {data : DataField} (h : decodePower data len = .ok true)
    (hq : s.q.length < c.queueDepth) :
    doPower c len data s = (queuePush (frameOf c s.lastColor) (setPowerLine true s), .ok) := by
  simp [doPower, h, submit_of_lt (s := setPowerLine true s) (frameOf c s.lastColor) hq]

theorem decodeStatus_ne_ok (e : DecodeError) : decodeStatus e ≠ .ok := by cases e <;> decide

/-! ### Who writes the two registers -/

/-- A colour command that ends with status `OK` was decoded, and its colour is cached (R174, R179). -/
theorem lastColor_of_ok {len : LenField} {data : DataField}
    (hok : (commandPhase c (.setColor len data) s).rspStatus = .ok) :
    decodeColor c data len = .ok (commandPhase c (.setColor len data) s).lastColor := by
  simp only [commandPhase] at hok ⊢
  rcases doColor_cases c len data s with ⟨e, -, hdo⟩ | ⟨col, -, -, hdo⟩ | ⟨col, hd, -, hdo⟩ <;> rw [hdo] at hok ⊢
  · exact absurd hok (decodeStatus_ne_ok e)
  · cases hok
  · exact hd

/-- Only a colour command with status `OK` writes the cache (R21). -/
theorem setColor_ok_of_lastColor_ne {i : Instr} (h : (commandPhase c i s).lastColor ≠ s.lastColor) :
    ∃ len data, i = .setColor len data ∧ (commandPhase c i s).rspStatus = .ok := by
  cases i with
  | reset | nop => exact absurd rfl h
  | setColor len data =>
    obtain ⟨-, -, -, -, -, -, hwritten⟩ := answered_doColor c len data s _ rfl
    exact ⟨len, data, rfl, (hwritten h).1⟩
  | setPower len data => exact absurd (answered_doPower c len data s _ rfl).1 h

/-- A power command of length 1 drives the line with its byte, whatever its status (R175). -/
theorem powerOn_setPower {len : LenField} {data : DataField} (hlen : len.toNat = 1) :
    (commandPhase c (.setPower len data) s).powerOn = decide (payloadByte data 0 = 0x31) := by
  obtain ⟨-, -, -, -, -, hline⟩ := answered_doPower c len data s _ rfl
  rcases decodePower_cases data len with ⟨-, hne⟩ | ⟨hd, -⟩
  · exact absurd hlen hne
  · rw [hd] at hline
    exact hline.trans (beq_eq_decide _ _)

/-- Only a power command of length 1 writes the line (R22). -/
theorem setPower_of_powerOn_ne {i : Instr} (h : (commandPhase c i s).powerOn ≠ s.powerOn) :
    ∃ len data, i = .setPower len data ∧ len.toNat = 1 := by
  cases i with
  | reset | nop => exact absurd rfl h
  | setColor len data => exact absurd (answered_doColor c len data s _ rfl).1 h
  | setPower len data =>
    rcases decodePower_cases data len with ⟨hd, -⟩ | ⟨-, hlen⟩
    · rw [commandPhase, doPower_of_error hd] at h
      exact absurd rfl h
    · exact ⟨len, data, rfl, hlen⟩

/-! ### Who reads them -/

/-- No command phase but that of an on-command reads the cache. -/
theorem commandPhase_with_lastColor {i : Instr} (other : Color)
    (hi : ∀ len data, i = .setPower len data → decodePower data len ≠ .ok true) :
    ∃ col, commandPhase c i { s with lastColor := other } = { commandPhase c i s with lastColor := col } := by
  cases i with
  | reset | nop => exact ⟨other, rfl⟩
  | setColor len data =>
    simp only [commandPhase]
    rcases doColor_cases c len data s with ⟨e, hd, hdo⟩ | ⟨col, hd, hq, hdo⟩ | ⟨col, hd, hq, hdo⟩ <;> rw [hdo]
    · exact ⟨other, by rw [doColor_of_error hd]; rfl⟩
    · exact ⟨other, by rw [doColor_of_full (s := { s with lastColor := other }) hd hq]; rfl⟩
    · exact ⟨col, by rw [doColor_of_free (s := { s with lastColor := other }) hd hq]; rfl⟩
  | setPower len data =>
    have hon := hi len data rfl
    refine ⟨other, ?_⟩
    simp only [commandPhase]
    rcases doPower_cases c len data s with ⟨e, hd, hdo⟩ | ⟨hd, hdo⟩ | ⟨hd, -⟩ | ⟨hd, -⟩
    · rw [hdo, doPower_of_error hd]; rfl
    · rw [hdo, doPower_of_off hd]; rfl
    · exact absurd hd hon
    · exact absurd hd hon

/-- No command phase reads the line. -/
theorem commandPhase_with_powerOn (i : Instr) (other : Bool) :
    ∃ line, commandPhase c i { s with powerOn := other } = { commandPhase c i s with powerOn := line } := by
  cases i with
  | reset | nop => exact ⟨other, rfl⟩
  | setColor len data =>
    refine ⟨other, ?_⟩
    simp only [commandPhase]
    rcases doColor_cases c len data s with ⟨e, hd, hdo⟩ | ⟨col, hd, hq, hdo⟩ | ⟨col, hd, hq, hdo⟩ <;> rw [hdo]
    · rw [doColor_of_error hd]; rfl
    · rw [doColor_of_full (s := { s with powerOn := other }) hd hq]; rfl
    · rw [doColor_of_free (s := { s with powerOn := other }) hd hq]; rfl
  | setPower len data =>
    simp only [commandPhase]
    rcases doPower_cases c len data s with ⟨e, hd, hdo⟩ | ⟨hd, hdo⟩ | ⟨hd, hq, hdo⟩ | ⟨hd, hq, hdo⟩ <;> rw [hdo]
    · exact ⟨other, by rw [doPower_of_error hd]; rfl⟩
    · exact ⟨false, by rw [doPower_of_off hd]; rfl⟩
    · exact ⟨true, by rw [doPower_of_full (s := { s with powerOn := other }) hd hq]; rfl⟩
    · exact ⟨true, by rw [doPower_of_free (s := { s with powerOn := other }) hd hq]; rfl⟩

/-- The serializer phase carries both registers along unread (R147). -/
theorem serPhase_with_registers (h : serPhase c s = .next t) (line : Bool) (col : Color) :
    serPhase c { s with powerOn := line, lastColor := col } = .next { t with powerOn := line, lastColor := col } := by
  obtain ⟨-, -, hvalid, hstatus, hinputs, -⟩ := serPhase_frame h
  simpa only [hvalid, hstatus, hinputs] using serPhase_with h line col s.txDone s.rspValid s.rspStatus s.inputs

theorem serPhase_with_lastColor (h : serPhase c s = .next t) (col : Color) :
    serPhase c { s with lastColor := col } = .next { t with lastColor := col } := by
  simpa only [(serPhase_frame h).1] using serPhase_with_registers h s.powerOn col

theorem serPhase_with_powerOn (h : serPhase c s = .next t) (line : Bool) :
    serPhase c { s with powerOn := line } = .next { t with powerOn := line } := by
  simpa only [(serPhase_frame h).2.1] using serPhase_with_registers h line s.lastColor

/-- Any operation but an on-command does the same whatever `last_color` holds. -/
theorem execOn_with_lastColor {i : Instr} (other : Color)
    (hi : ∀ len data, i = .setPower len data → decodePower data len ≠ .ok true) (h : execOn c i s = .next t) :
    ∃ col, execOn c i { s with lastColor := other } = .next { t with lastColor := col } := by
  by_cases hr : i = .reset
  · subst hr
    exact ⟨t.lastColor, h⟩
  · rw [execOn_of_ne_reset hr] at h ⊢
    obtain ⟨col, e⟩ := commandPhase_with_lastColor (c := c) (s := s) other hi
    rw [e]
    exact ⟨col, serPhase_with_lastColor h col⟩

/-- Every operation does the same whatever `power_on` holds. -/
theorem execOn_with_powerOn {i : Instr} (other : Bool) (h : execOn c i s = .next t) :
    ∃ line, execOn c i { s with powerOn := other } = .next { t with powerOn := line } := by
  by_cases hr : i = .reset
  · subst hr
    exact ⟨t.powerOn, h⟩
  · rw [execOn_of_ne_reset hr] at h ⊢
    obtain ⟨line, e⟩ := commandPhase_with_powerOn (c := c) (s := s) i other
    rw [e]
    exact ⟨line, serPhase_with_powerOn h line⟩

/-! ### The two statements -/

/-- Settles O36: the command phase is the only writer and, in an on-command, the only reader of `last_color`. -/
theorem onlyAcceptedColorsReachTheCache : Obligations.OnlyAcceptedColorsReachTheCache := by
  refine ⟨fun s t h => ⟨fun hreset => ?_, fun len data hi hok => ?_, fun hi hne => ?_⟩, fun i s t other hi h => ?_,
    fun s other => rfl⟩
  · rw [eq_reset_of_step h hreset, resetOf_lastColor]
  · obtain ⟨-, hcolor, -, hstatus⟩ := step_registers h (by simp [hi])
    rw [hi] at hcolor hstatus
    rw [hcolor]
    exact lastColor_of_ok (hstatus.symm.trans hok)
  · obtain ⟨-, hcolor, -, hstatus⟩ := step_registers h hi
    rw [hcolor] at hne
    rw [hstatus]
    exact setColor_ok_of_lastColor_ne hne
  · rw [exec_eq_execOn] at h ⊢
    exact execOn_with_lastColor other hi h

/-- Settles O37: the command phase is the only writer of `power_on`, in power commands of length 1, and no phase reads
it. -/
theorem onlyDecodedPowerCommandsDriveThePowerLine : Obligations.OnlyDecodedPowerCommandsDriveThePowerLine := by
  refine ⟨fun s t h => ⟨fun hreset => ?_, fun len data hi hlen => ?_, fun hne => ?_⟩, fun i s t other h => ?_,
    fun s => rfl⟩
  · rw [eq_reset_of_step h hreset, resetOf_powerOn]
  · rw [(step_registers h (by simp [hi])).1, hi]
    exact powerOn_setPower hlen
  · by_cases hreset : nextInstr s = .reset
    · exact .inl hreset
    · rw [(step_registers h hreset).1] at hne
      exact .inr (setPower_of_powerOn_ne hne)
  · rw [exec_eq_execOn] at h ⊢
    exact execOn_with_powerOn other h

end Sys2Proof.Machine
end

section
/-! The Command Decoder (R100, R110): the clamp by its three ranges, and the two decoders by what stands in the
payload. -/

namespace Sys2Proof.Machine

/-! ### The clamp (R106) -/

theorem clamp_of_neg {v : Int} (h : v < 0) : clamp v = 0 := if_pos h

theorem clamp_of_gt {v : Int} (h : 255 < v) : clamp v = 255 := by
  have hneg : ¬ v < 0 := by omega
  simp [clamp, hneg, h]

theorem clamp_toNat_of_mem_range {v : Int} (h₀ : 0 ≤ v) (h₁ : v ≤ 255) : ((clamp v).toNat : Int) = v := by
  rw [clamp_toNat, if_neg (Int.not_lt.2 h₀), if_neg (Int.not_lt.2 h₁), Int.toNat_of_nonneg h₀]

/-! ### The two decoders, one equation per outcome -/

/-- A scan within the legal lengths decides the colour, integer by integer (R105, R106). -/
theorem decodeColor_of_scan {c : Config} {data : DataField} {len : LenField} {v0 v1 v2 : Int}
    (hmin : c.minLen ≤ len.toNat) (hmax : len.toNat ≤ c.maxLen)
    (hscan : scanTriplet (fillBuffer c data len.toNat) = some (v0, v1, v2)) :
    decodeColor c data len = .ok ⟨clamp v0, clamp v1, clamp v2⟩ := by
  rcases decodeColor_cases c data len with ⟨-, hlen⟩ | ⟨-, -, -, hnone⟩ | ⟨w0, w1, w2, hd, -, -, hsome⟩
  · omega
  · rw [hscan] at hnone
    cases hnone
  · rw [hscan] at hsome
    cases hsome
    exact hd

theorem decodePower_of_length_ne_one {len : LenField} (data : DataField) (h : len.toNat ≠ 1) :
    decodePower data len = .error .invalidLength := by
  rcases decodePower_cases data len with ⟨hd, -⟩ | ⟨-, hlen⟩
  · exact hd
  · exact absurd hlen h

theorem decodePower_of_length_one {len : LenField} (data : DataField) (h : len.toNat = 1) :
    decodePower data len = .ok (payloadByte data 0 == 0x31) := by
  rcases decodePower_cases data len with ⟨-, hlen⟩ | ⟨hd, -⟩
  · exact absurd h hlen
  · exact hd

/-! ### The two statements -/

/-- Settles O11: the three ranges of the clamp, and `decodeColor_of_scan` at the lengths of `params`. -/
theorem clampBringsAnIntegerToTheNearestBound : Obligations.ClampBringsAnIntegerToTheNearestBound :=
  ⟨fun _ => ⟨clamp_of_neg, clamp_of_gt, clamp_toNat_of_mem_range⟩,
    fun _ _ _ _ _ hmin hmax hscan => ⟨_, decodeColor_of_scan (c := params) hmin hmax hscan, rfl, rfl, rfl⟩⟩

/-- Settles O15: the length decides between the error and an answer, then byte 0 decides the answer. -/
theorem decodePowerReadsOneByte : Obligations.DecodePowerReadsOneByte := by
  refine fun data len => ⟨decodePower_of_length_ne_one data, fun hlen hon => ?_, fun hlen hoff => ?_⟩
  · rw [decodePower_of_length_one data hlen, beq_iff_eq.2 hon]
  · rw [decodePower_of_length_one data hlen, beq_eq_false_iff_ne.2 hoff]

end Sys2Proof.Machine
end

section
/-! The frame builder (R125): what stands at a position of a frame. -/

namespace Sys2Proof.Machine

/-- Equal blocks in a row: position `k` of block `p` holds what position `k` of the block holds. -/
theorem getElem?_flatten_replicate {α : Type} {block : List α} {n p k : Nat} (hp : p < n) (hk : k < block.length) :
    (List.replicate n block).flatten[block.length * p + k]? = block[k]? := by
  induction n generalizing p with
  | zero => exact absurd hp (Nat.not_lt_zero p)
  | succ n ih =>
    rw [List.replicate_succ, List.flatten_cons]
    cases p with
    | zero => rw [Nat.mul_zero, Nat.zero_add, List.getElem?_append_left hk]
    | succ p =>
      have hskip : block.length * (p + 1) + k = block.length + (block.length * p + k) := by
        rw [Nat.mul_succ]
        omega
      rw [hskip, List.getElem?_append_right (Nat.le_add_right _ _), Nat.add_sub_cancel_left]
      exact ih (Nat.lt_of_succ_lt_succ hp)

/-- Byte `k` of every pixel of a frame is byte `k` of the colour's record (R125). -/
theorem frameOf_getElem? (c : Config) (col : Color) {p k : Nat} (hp : p < c.pixelCount) (hk : k < 3) :
    (frameOf c col)[3 * p + k]? = (pixelRecord col)[k]? :=
  getElem?_flatten_replicate (block := pixelRecord col) hp hk

/-- Settles O18: the three bytes of a pixel are those of the record, which stands in wire order. -/
theorem frameBroadcastsOneColorInWireOrder : Obligations.FrameBroadcastsOneColorInWireOrder :=
  fun c col => ⟨frameOf_length c col, rfl, fun _ hp =>
    ⟨frameOf_getElem? c col (k := 0) hp (by decide), frameOf_getElem? c col (k := 1) hp (by decide),
      frameOf_getElem? c col (k := 2) hp (by decide)⟩⟩

end Sys2Proof.Machine
end

section
/-! The transmit channel: the serializer phase case by case (R147), and what it does to the queue (R145). -/

namespace Sys2Proof.Machine

open Sys2Proof.Safety

variable {c : Config} {s t : State}

/-! ### A tick inside a frame, one equation per outcome of the walk -/

theorem playTick_of_advance {b : Bool} {p : Position}
    (h : advance c.frameBytes (partTicks (pulseSpec c) b s.pos.ph) s.pos = some p) :
    playTick c b s = setSerializer true p (setTxDone false s) := by simp [playTick, h]

theorem playTick_of_advance_none {b : Bool}
    (h : advance c.frameBytes (partTicks (pulseSpec c) b s.pos.ph) s.pos = none) :
    playTick c b s = endFrame s := by simp [playTick, h]

/-- The walk ends in the low part of bit 0 of the last byte only (R147). -/
theorem lastPart_of_advance_none {n dur : Nat} {p : Position} (h : advance n dur p = none) :
    n - 1 ≤ p.byteIdx ∧ p.bitIdx = 0 ∧ p.ph = false := by
  rcases advance_cases n dur p with ⟨-, e⟩ | ⟨-, -, e⟩ | ⟨-, -, -, e⟩ | ⟨-, -, -, -, e⟩ | ⟨-, hph, hbit, hbyte, -⟩
  · simp [e] at h
  · simp [e] at h
  · simp [e] at h
  · simp [e] at h
  · exact ⟨hbyte, hbit, hph⟩

/-! ### `NOP` in each case of the serializer phase -/

theorem exec_nop_idle (ha : s.act = false) (hq : s.q = []) :
    exec .nop s = .next { s with rspValid := false, txDone := false } :=
  serPhase_idle params (s := noResponse s) ha hq

theorem exec_nop_start (ha : s.act = false) (hq : s.q ≠ []) :
    exec .nop s = .next { s with rspValid := false, txDone := false, act := true, pos := Position.start } :=
  serPhase_start params (s := noResponse s) ha hq

/-- A `NOP` while bit `b` is on the wire. -/
theorem exec_nop_play {b : Bool} (ha : s.act = true) (hb : currentBit s = some b) :
    exec .nop s = .next (playTick params b (noResponse s)) :=
  serPhase_play params (s := noResponse s) ha hb

/-- A tick of a `NOP` that goes on inside the frame moves the position and nothing else. -/
theorem playTick_noResponse_of_advance {b : Bool} {p : Position} (ha : s.act = true)
    (h : advance c.frameBytes (partTicks (pulseSpec c) b s.pos.ph) s.pos = some p) :
    playTick c b (noResponse s) = { s with rspValid := false, txDone := false, pos := p } := by
  rw [playTick_of_advance (s := noResponse s) h]
  simp only [setSerializer, setTxDone, noResponse, ha]

/-- A tick of a `NOP` that ends the frame: `act` stays 1 exactly when a frame is left (R149). -/
theorem playTick_noResponse_of_advance_none {b : Bool} {f : Frame} {rest : List Frame} (hq : s.q = f :: rest)
    (h : advance c.frameBytes (partTicks (pulseSpec c) b s.pos.ph) s.pos = none) :
    playTick c b (noResponse s) =
      { s with rspValid := false, txDone := true, q := rest, act := decide (rest ≠ []), pos := Position.start } := by
  rw [playTick_of_advance_none (s := noResponse s) h]
  have hact : (!rest.isEmpty) = decide (rest ≠ []) := by cases rest <;> rfl
  simp only [endFrame, setSerializer, setTxDone, queuePop, noResponse, hq, List.tail_cons, hact]

/-- Settles O24: the idle phase, the start of a frame, and the five cases of the walk. -/
theorem nopRunsTheSerializerPhase : Obligations.NopRunsTheSerializerPhase := by
  refine fun s => ⟨exec_nop_idle, exec_nop_start, fun f rest byte ha hq hbyte => ?_⟩
  rw [exec_nop_play ha (currentBit_cons hq hbyte)]
  congr 1
  change _ = if s.pos.cnt + 1 < partTicks (pulseSpec params) (byte.getLsbD s.pos.bitIdx) s.pos.ph then _ else _
  rcases advance_cases params.frameBytes (partTicks (pulseSpec params) (byte.getLsbD s.pos.bitIdx) s.pos.ph) s.pos
    with ⟨hcnt, e⟩ | ⟨hcnt, hph, e⟩ | ⟨hcnt, hph, hbit, e⟩ | ⟨hcnt, hph, hbit, hlt, e⟩ | ⟨hcnt, hph, hbit, hle, e⟩
  · rw [if_pos hcnt, playTick_noResponse_of_advance ha e]
  · rw [if_neg (Nat.not_lt.2 hcnt), if_pos hph, playTick_noResponse_of_advance ha e]
  · rw [if_neg (Nat.not_lt.2 hcnt), if_neg (by simp [hph]), if_pos (show 0 < s.pos.bitIdx.val from hbit),
      playTick_noResponse_of_advance ha e]
  · rw [if_neg (Nat.not_lt.2 hcnt), if_neg (by simp [hph]), if_neg (by simp [hbit]), if_pos hlt,
      playTick_noResponse_of_advance ha e]
  · rw [if_neg (Nat.not_lt.2 hcnt), if_neg (by simp [hph]), if_neg (by simp [hbit]), if_neg (Nat.not_lt.2 hle),
      playTick_noResponse_of_advance_none hq e]
    rfl

/-! ### The queue over an operation -/

theorem length_pushedFrames_le_one (c : Config) (i : Instr) (s : State) : (pushedFrames c i s).length ≤ 1 := by
  rcases pushedFrames_cases c i s with h | ⟨-, col, h⟩ <;> simp [h]

/-- The serializer phase takes the head off the queue exactly when it sets `tx_done` (R145, R149). -/
theorem serPhase_q (h : serPhase c s = .next t) : t.q = if t.txDone then s.q.tail else s.q := by
  obtain ⟨-, -, -, -, -, ⟨hdone, hq⟩ | ⟨hdone, -, -, hq⟩⟩ := serPhase_frame h <;> simp [hdone, hq]

/-- The serializer phase sets `tx_done` at the end of a frame only (R149). -/
theorem lastPart_of_serPhase_txDone (h : serPhase c s = .next t) (hdone : t.txDone = true) :
    s.act = true ∧ s.q ≠ [] ∧ c.frameBytes - 1 ≤ s.pos.byteIdx ∧ s.pos.bitIdx = 0 ∧ s.pos.ph = false := by
  rcases serPhase_next h with ⟨-, -, rfl⟩ | ⟨-, -, rfl⟩ | ⟨b, ha, hb, rfl⟩
  · simp at hdone
  · simp [startFrame] at hdone
  · rcases playTick_cases c b s with ⟨p, -, e⟩ | ⟨hnone, -⟩
    · simp [e] at hdone
    · exact ⟨ha, ne_nil_of_currentBit (by simp [hb]), lastPart_of_advance_none hnone⟩

/-- Settles O34: the command phase appends the pushed frames, the serializer phase pops the finished head. -/
theorem queueMovesOnlyAtItsEnds : Obligations.QueueMovesOnlyAtItsEnds := by
  intro i s t hi h
  rw [exec_eq_execOn, execOn_of_ne_reset hi] at h
  refine ⟨length_pushedFrames_le_one params i s, ?_, fun hdone => ?_⟩
  · simpa using serPhase_q h
  · simpa only [commandPhase_act, commandPhase_q, commandPhase_pos] using lastPart_of_serPhase_txDone h hdone

end Sys2Proof.Machine
end

section
/-! The statuses in place of exceptions (R190 to R199): which one a command ends with, and what a command that fails
leaves (R196). -/

namespace Sys2Proof.Machine

variable {c : Config} {s t : State} {len : LenField} {data : DataField}

/-! ### Which status a command ends with (R199) -/

/-- `DoColor` tests the length, then the payload, then the queue. -/
theorem doColor_status : (doColor c len data s).2 =
    (if len.toNat < c.minLen ∨ c.maxLen < len.toNat then .invalidLength
     else if scanTriplet (fillBuffer c data len.toNat) = none then .malformedPayload
     else if s.q.length < c.queueDepth then .ok
     else .busy) := by
  rcases decodeColor_cases c data len with
    ⟨hd, hlen⟩ | ⟨hd, hmin, hmax, hscan⟩ | ⟨v0, v1, v2, hd, hmin, hmax, hscan⟩
  · rw [doColor_of_error hd, if_pos hlen]
    rfl
  · rw [doColor_of_error hd, if_neg (by omega), if_pos hscan]
    rfl
  · rw [if_neg (by omega), if_neg (by simp [hscan])]
    by_cases hq : s.q.length < c.queueDepth
    · rw [doColor_of_free hd hq, if_pos hq]
    · rw [doColor_of_full hd (Nat.not_lt.1 hq), if_neg hq]

/-- `DoPower` tests the length, then, for an on-command, the queue. -/
theorem doPower_status : (doPower c len data s).2 =
    (if len.toNat ≠ 1 then .invalidLength
     else if payloadByte data 0 ≠ 0x31 then .ok
     else if s.q.length < c.queueDepth then .ok
     else .busy) := by
  by_cases hlen : len.toNat = 1
  · rw [if_neg (not_not_intro hlen)]
    have hd := decodePower_of_length_one data hlen
    by_cases hon : payloadByte data 0 = 0x31
    · rw [if_neg (not_not_intro hon)]
      rw [beq_iff_eq.2 hon] at hd
      by_cases hq : s.q.length < c.queueDepth
      · rw [doPower_of_free hd hq, if_pos hq]
      · rw [doPower_of_full hd (Nat.not_lt.1 hq), if_neg hq]
    · rw [beq_eq_false_iff_ne.2 hon] at hd
      rw [doPower_of_off hd, if_pos hon]
  · rw [doPower_of_error (decodePower_of_length_ne_one data hlen), if_pos hlen]
    rfl

/-- The serializer phase carries the response of the command phase (R181). -/
theorem response_of_serPhase_answered {r : State × Status} (h : serPhase c (answered r) = .next t) :
    t.rspValid = true ∧ t.rspStatus = r.2 := by
  obtain ⟨-, -, hvalid, hstatus, -⟩ := serPhase_frame h
  exact ⟨hvalid, hstatus⟩

/-- Settles O29: the response is that of the command phase, which tests in this order. -/
theorem statusesHaveTheirCausesInPriorityOrder : Obligations.StatusesHaveTheirCausesInPriorityOrder := by
  refine ⟨rfl, rfl, rfl, rfl, fun s t len data => ⟨fun h => ?_, fun h => ?_⟩⟩
  · obtain ⟨hvalid, hstatus⟩ := response_of_serPhase_answered h
    exact ⟨hvalid, hstatus.trans doColor_status⟩
  · obtain ⟨hvalid, hstatus⟩ := response_of_serPhase_answered h
    exact ⟨hvalid, hstatus.trans doPower_status⟩

/-! ### What a command that fails leaves (R196) -/

theorem decodeStatus_ne_busy (e : DecodeError) : decodeStatus e ≠ .busy := by cases e <;> decide

/-- The command phase of a colour command that fails changes nothing. -/
theorem doColor_of_ne_ok (h : (doColor c len data s).2 ≠ .ok) :
    doColor c len data s = (s, (doColor c len data s).2) := by
  rcases doColor_cases c len data s with ⟨e, -, hdo⟩ | ⟨col, -, -, hdo⟩ | ⟨col, -, -, hdo⟩
  · rw [hdo]
  · rw [hdo]
  · exact absurd (congrArg Prod.snd hdo) h

/-- The command phase of a power command that fails changes nothing but the line, which it raises when the queue is
full. -/
theorem doPower_of_ne_ok (h : (doPower c len data s).2 ≠ .ok) :
    doPower c len data s =
      (setPowerLine (if (doPower c len data s).2 = .busy then true else s.powerOn) s, (doPower c len data s).2) := by
  rcases doPower_cases c len data s with ⟨e, -, hdo⟩ | ⟨-, hdo⟩ | ⟨-, -, hdo⟩ | ⟨-, -, hdo⟩
  · rw [hdo, if_neg (decodeStatus_ne_busy e)]
    rfl
  · exact absurd (congrArg Prod.snd hdo) h
  · rw [hdo, if_pos rfl]
  · exact absurd (congrArg Prod.snd hdo) h

/-- Behind a command phase that wrote no more than the line and the response, the serializer phase does what it does
in a `NOP`. -/
theorem nop_of_serPhase_respond {line : Bool} {st : Status}
    (h : serPhase c (respond st (setPowerLine line s)) = .next t) :
    ∃ u, serPhase c (noResponse s) = .next u ∧ u.powerOn = s.powerOn ∧
      t = { u with powerOn := line, rspValid := true, rspStatus := st } := by
  obtain ⟨hpower, hcolor, hvalid, hstatus, hinputs, -⟩ := serPhase_frame h
  refine ⟨_, serPhase_with h s.powerOn s.lastColor s.txDone false s.rspStatus s.inputs, rfl, ?_⟩
  cases t
  cases hpower; cases hcolor; cases hvalid; cases hstatus; cases hinputs
  rfl

/-- Settles O30: a command phase that fails writes no more than the line and the response. -/
theorem failingCommandsLeaveWhatANopLeaves : Obligations.FailingCommandsLeaveWhatANopLeaves := by
  refine fun s t len data => ⟨fun h hfail => ?_, fun h hfail => ?_, fun h => ?_⟩
  · obtain ⟨-, hstatus⟩ := response_of_serPhase_answered h
    rw [hstatus] at hfail ⊢
    rw [exec_setColor, doColor_of_ne_ok hfail] at h
    obtain ⟨u, hnop, hpower, ht⟩ := nop_of_serPhase_respond (line := s.powerOn) h
    exact ⟨u, hnop, hpower ▸ ht⟩
  · obtain ⟨-, hstatus⟩ := response_of_serPhase_answered h
    rw [hstatus] at hfail ⊢
    rw [exec_setPower, doPower_of_ne_ok hfail] at h
    obtain ⟨u, hnop, hpower, ht⟩ := nop_of_serPhase_respond h
    exact ⟨u, hnop, hpower ▸ ht⟩
  · rw [(response_of_serPhase_answered h).2, doPower_status]
    split_ifs <;> decide

end Sys2Proof.Machine
end

section
/-! The step of the machine is the step of the block built at `params`; the invariants of R24, R26 and R152 along it. -/

namespace Sys2Proof.Machine

open Sys2Proof.Safety

theorem step_eq_stepOn (s : State) : step s = stepOn params s := exec_eq_execOn _ _

/-- Runs of the interface's machine are runs of the block built at `params`. -/
theorem run_core_eq_run_coreOn (n : Nat) (s : State) :
    Host.Core.run Sys2Proof.core n s = Host.Core.run (coreOn params) n s := by
  induction n generalizing s with
  | zero => rfl
  | succ n ih =>
    have e : Host.Core.step Sys2Proof.core s = Host.Core.step (coreOn params) s := step_eq_stepOn s
    simp only [Host.Core.run, e]
    cases Host.Core.step (coreOn params) s with
    | next t => exact ih t
    | fault r | refused r => rfl

/-- A step from a state that meets the invariants completes and keeps them. -/
theorem step_inv {s : State} (h : Inv params s) : ∃ t, step s = .next t ∧ Inv params t :=
  step_eq_stepOn s ▸ stepOn_inv h

/-- Settles O40: the step answers the state that `step_inv` speaks of, and no other. -/
theorem stepKeepsTheInvariant : Obligations.StepKeepsTheInvariant := by
  intro s t hinv hstep
  obtain ⟨u, hu, hkept⟩ := step_inv hinv
  rw [hstep] at hu
  cases hu
  exact hkept

/-- Settles O39: the serializer is idle at the start position, with one frame waiting. -/
theorem resetMeetsTheInvariant : Obligations.ResetMeetsTheInvariant := inv_reset params

/-- Settles O4: every arm of `exec` is the operation at `params`. -/
theorem stepIsTheConfiguredStep : Obligations.StepIsTheConfiguredStep :=
  ⟨step_eq_stepOn, rfl, run_core_eq_run_coreOn⟩

end Sys2Proof.Machine
end

section
/-! The decoder and the encoder (R71 to R74): they agree on words and on bytes, every word selects one row, and a step
reads no more of a word than the decoder does. -/

namespace Sys2Proof

/-! ### Words -/

/-- The word of a command decodes to that command, whatever its operands (R72). -/
theorem decode_packInput_command (char : Bool) (len : LenField) (data : DataField) :
    decode (packInput false true char len data) = if char then .setPower len data else .setColor len data := by
  cases char with
  | false => rw [decode_of_color] <;> simp
  | true => rw [decode_of_power] <;> simp

theorem decode_ne_reset {v : InputVec} (h : rstOf v = false) : decode v ≠ .reset := by
  cases hvalid : cmdValidOf v with
  | false => simp [decode_of_idle h hvalid]
  | true =>
    cases hchar : cmdCharOf v with
    | false => simp [decode_of_color h hvalid hchar]
    | true => simp [decode_of_power h hvalid hchar]

theorem decode_encode (i : Instr) : decode (encode i) = i := by
  cases i with
  | reset => exact decode_of_rst (rstOf_packInput ..)
  | nop => exact decode_of_idle (rstOf_packInput ..) (cmdValidOf_packInput ..)
  | setColor len data => exact decode_packInput_command false len data
  | setPower len data => exact decode_packInput_command true len data

/-! ### Words as bytes -/

/-- Twelve bytes of a number give back the input vector of its low 91 bits, as 91 is less than 96. -/
theorem ofNat_natOfBytes_bytesOfNat (w : Nat) :
    BitVec.ofNat 91 (natOfBytes (bytesOfNat inputBytes w)) = BitVec.ofNat 91 w := by
  have hdvd : (2 : Nat) ^ 91 ∣ 256 ^ inputBytes := ⟨2 ^ 5, by decide⟩
  apply BitVec.eq_of_toNat_eq
  rw [natOfBytes_bytesOfNat, BitVec.toNat_ofNat, BitVec.toNat_ofNat, Nat.mod_mod_of_dvd w hdvd]

theorem natOfBytes_encodeBytes (i : Instr) : natOfBytes (encodeBytes i) = (encode i).toNat := by
  have hfits : (2 : Nat) ^ 91 < 256 ^ inputBytes := by decide
  rw [encodeBytes, natOfBytes_bytesOfNat, Nat.mod_eq_of_lt ((encode i).isLt.trans hfits)]

theorem decodeBytes_encodeBytes (i : Instr) (rest : List Byte) :
    decodeBytes (encodeBytes i ++ rest) = .ok (i, rest) := by
  rw [decodeBytes_append (encodeBytes i) rest (bytesOfNat_length _ _), natOfBytes_encodeBytes, if_pos (encode i).isLt,
    BitVec.ofNat_toNat, BitVec.setWidth_eq, decode_encode]

/-- What the decoder reads from a table word is what it reads from the word's bits. -/
theorem decode_of_decodeTableWord {nbits w : Nat} {i : Instr} (h : decodeTableWord nbits w = some i) :
    decode (BitVec.ofNat 91 (w % 2 ^ nbits)) = i := by
  have hread := decodeBytes_append (bytesOfNat inputBytes (w % 2 ^ nbits)) [] (bytesOfNat_length _ _)
  rw [List.append_nil, ofNat_natOfBytes_bytesOfNat] at hread
  rw [decodeTableWord, hread] at h
  split_ifs at h
  exact Option.some.inj h

/-- Settles O6: the word by its fields, the bytes by the number they hold. -/
theorem decodeOfEncodeIsTheInstruction : Obligations.DecodeOfEncodeIsTheInstruction :=
  fun i _ => ⟨decode_encode i, decodeBytes_encodeBytes i⟩

/-- Settles O5, by evaluation of the five words. -/
theorem writtenOutWordsDecode : Obligations.WrittenOutWordsDecode := by
  unfold Obligations.WrittenOutWordsDecode
  decide

/-! ### The rows of the operation map (R72) -/

/-- A mask of the three top bits keeps those it asks for and clears the rest. -/
theorem and_packInput_mask (v : InputVec) (a b d : Bool) :
    v &&& packInput a b d 0 0 = packInput (rstOf v && a) (cmdValidOf v && b) (cmdCharOf v && d) 0 0 := by
  apply BitVec.eq_of_getLsbD_eq
  intro i _
  simp only [BitVec.getLsbD_and, getLsbD_packInput, rstOf, cmdValidOf, cmdCharOf]
  split_ifs
  · simp
  · simp
  · obtain rfl : i = 88 := by omega
    simp
  · obtain rfl : i = 89 := by omega
    simp
  · obtain rfl : i = 90 := by omega
    simp

theorem packInput_inj_flags {a b d a' b' d' : Bool} :
    packInput a b d 0 0 = packInput a' b' d' 0 0 ↔ a = a' ∧ b = b' ∧ d = d' := by
  refine ⟨fun h => ⟨?_, ?_, ?_⟩, fun ⟨ha, hb, hd⟩ => by rw [ha, hb, hd]⟩
  · simpa using congrArg rstOf h
  · simpa using congrArg cmdValidOf h
  · simpa using congrArg cmdCharOf h

/-- A row whose mask and match consist of flags compares the flags that its mask keeps (R72). -/
theorem selects_of_flags {row : OpcodeRow} (v : InputVec) {a b d p q r : Bool}
    (hmask : row.mask = packInput a b d 0 0) (hpattern : row.pattern = packInput p q r 0 0) :
    row.selects v = ((rstOf v && a) == p && ((cmdValidOf v && b) == q && (cmdCharOf v && d) == r)) := by
  rw [OpcodeRow.selects, hmask, hpattern, and_packInput_mask, Bool.eq_iff_iff, beq_iff_eq, packInput_inj_flags]
  simp

theorem selects_resetRow (v : InputVec) : resetRow.selects v = rstOf v := by
  rw [selects_of_flags v (a := true) (b := false) (d := false) (p := true) (q := false) (r := false) (by decide)
    (by decide)]
  simp

theorem selects_nopRow (v : InputVec) : nopRow.selects v = (!rstOf v && !cmdValidOf v) := by
  rw [selects_of_flags v (a := true) (b := true) (d := false) (p := false) (q := false) (r := false) (by decide)
    (by decide)]
  simp

theorem selects_setColorRow (v : InputVec) :
    setColorRow.selects v = (!rstOf v && (cmdValidOf v && !cmdCharOf v)) := by
  rw [selects_of_flags v (a := true) (b := true) (d := true) (p := false) (q := true) (r := false) (by decide)
    (by decide)]
  simp

theorem selects_setPowerRow (v : InputVec) :
    setPowerRow.selects v = (!rstOf v && (cmdValidOf v && cmdCharOf v)) := by
  rw [selects_of_flags v (a := true) (b := true) (d := true) (p := false) (q := true) (r := true) (by decide)
    (by decide)]
  simp

/-- Settles O7: the three flags that the rows test decide the row as they decide the operation. -/
theorem everyInputVectorSelectsExactlyOneRow : Obligations.EveryInputVectorSelectsExactlyOneRow := by
  intro v
  simp only [opcodeTable, List.filter_cons, List.filter_nil, selects_resetRow, selects_nopRow, selects_setColorRow,
    selects_setPowerRow]
  cases hrst : rstOf v with
  | true => simp [decode_of_rst hrst, rowOf]
  | false =>
    cases hvalid : cmdValidOf v with
    | false => simp [decode_of_idle hrst hvalid, rowOf]
    | true =>
      cases hchar : cmdCharOf v with
      | false => simp [decode_of_color hrst hvalid hchar, rowOf]
      | true => simp [decode_of_power hrst hvalid hchar, rowOf]

end Sys2Proof

namespace Sys2Proof.Machine

variable {s : State}

/-! ### A step reads the operation only -/

theorem step_with_inputs_cons (s : State) (v : InputVec) (rest : List InputVec) :
    step { s with inputs := v :: rest } = exec (decode v) { s with inputs := rest } := rfl

/-- Settles O3: the list's head is what the decoder reads, and an empty list reads as `NOP`. -/
theorem stepRunsTheDecodedInput : Obligations.StepRunsTheDecodedInput := by
  refine ⟨fun s v rest h => ?_, fun s h => ?_, fun s nbits w i h => ?_⟩
  · rw [step, nextInstr_of_cons h, popInput, h, List.tail_cons]
  · have hpop : popInput s = s := by
      cases s
      cases h
      rfl
    rw [step, nextInstr_of_nil h, hpop]
  · exact (step_with_inputs_cons s _ s.inputs).trans (by rw [decode_of_decodeTableWord h])

/-- Of a colour payload `DecodeColor` reads the bytes below a legal length only (R73, R108 (d)). -/
theorem decodeColor_congr {c : Config} {d₁ d₂ : DataField} {len : LenField}
    (h : c.minLen ≤ len.toNat → len.toNat ≤ c.maxLen → ∀ k < len.toNat, payloadByte d₁ k = payloadByte d₂ k) :
    decodeColor c d₁ len = decodeColor c d₂ len := by
  unfold decodeColor
  by_cases hlen : len.toNat < c.minLen ∨ c.maxLen < len.toNat
  · rw [if_pos hlen, if_pos hlen]
  · rw [if_neg hlen, if_neg hlen, fillBuffer_congr c d₁ d₂ len.toNat (h (by omega) (by omega))]

/-- Of a power payload `DecodePower` reads byte 0 of a payload of length 1 only (R73). -/
theorem decodePower_congr {d₁ d₂ : DataField} {len : LenField}
    (h : len.toNat = 1 → payloadByte d₁ 0 = payloadByte d₂ 0) : decodePower d₁ len = decodePower d₂ len := by
  by_cases hlen : len.toNat = 1
  · rw [decodePower_of_length_one d₁ hlen, decodePower_of_length_one d₂ hlen, h hlen]
  · rw [decodePower_of_length_ne_one d₁ hlen, decodePower_of_length_ne_one d₂ hlen]

/-- A colour command acts through what its payload decodes to. -/
theorem exec_setColor_congr {d₁ d₂ : DataField} {len : LenField}
    (h : decodeColor params d₁ len = decodeColor params d₂ len) :
    exec (.setColor len d₁) s = exec (.setColor len d₂) s := by
  rw [exec_setColor, exec_setColor, doColor, doColor, h]

/-- A power command acts through what its payload decodes to. -/
theorem exec_setPower_congr {d₁ d₂ : DataField} {len : LenField} (h : decodePower d₁ len = decodePower d₂ len) :
    exec (.setPower len d₁) s = exec (.setPower len d₂) s := by
  rw [exec_setPower, exec_setPower, doPower, doPower, h]

/-- Settles O8: the flags decide the operation, and each command acts through what its payload decodes to. -/
theorem ignoredInputBitsDoNotMatter : Obligations.IgnoredInputBitsDoNotMatter := by
  intro s rest v w hrst hvalid hcommand hcolor hpower
  rw [step_with_inputs_cons, step_with_inputs_cons]
  cases hr : rstOf v with
  | true => rw [decode_of_rst hr, decode_of_rst (hrst ▸ hr)]
  | false =>
    have hrw : rstOf w = false := hrst ▸ hr
    cases hv : cmdValidOf v with
    | false => rw [decode_of_idle hr hv, decode_of_idle hrw (hvalid hr ▸ hv)]
    | true =>
      have hvw : cmdValidOf w = true := hvalid hr ▸ hv
      obtain ⟨hchar, hlen⟩ := hcommand hr hv
      cases hc : cmdCharOf v with
      | false =>
        rw [decode_of_color hr hv hc, decode_of_color hrw hvw (hchar ▸ hc), ← hlen]
        exact exec_setColor_congr (decodeColor_congr (hcolor hr hv hc))
      | true =>
        rw [decode_of_power hr hv hc, decode_of_power hrw hvw (hchar ▸ hc), ← hlen]
        exact exec_setPower_congr (decodePower_congr (hpower hr hv hc))

/-! ### Write events (R74) -/

/-- Byte `k` of the number that a list of bytes holds. -/
theorem natOfBytes_div_mod {bs : List Byte} {k : Nat} {b : Byte} (h : bs[k]? = some b) :
    natOfBytes bs / 256 ^ k % 256 = b.toNat := by
  induction bs generalizing k with
  | nil => simp at h
  | cons a bs ih =>
    have ha := a.isLt
    cases k with
    | zero =>
      obtain rfl : a = b := by simpa using h
      rw [natOfBytes, Nat.pow_zero, Nat.div_one]
      omega
    | succ k =>
      rw [← ih (k := k) (by simpa using h), natOfBytes, Nat.pow_succ', ← Nat.div_div_eq_div_mul]
      congr 2
      omega

/-- The first ten bytes of a value stand in place in the field that carries it (R56, R74). -/
theorem payloadByte_dataOfBytes {bytes : List Byte} {k : Nat} {b : Byte} (hk : k < 10) (h : bytes[k]? = some b) :
    payloadByte (dataOfBytes bytes) k = b := by
  have htake : (bytes.take portBytes)[k]? = some b := (List.getElem?_take_of_lt hk).trans h
  have hfits : natOfBytes (bytes.take portBytes) < 2 ^ 80 :=
    (natOfBytes_lt _).trans_le <|
      (Nat.pow_le_pow_right (by decide) (List.length_take_le portBytes bytes)).trans (by decide)
  apply BitVec.eq_of_toNat_eq
  rw [payloadByte, BitVec.extractLsb'_toNat, dataOfBytes, BitVec.toNat_ofNat, Nat.mod_eq_of_lt hfits,
    Nat.shiftRight_eq_div_pow, Nat.pow_mul]
  exact natOfBytes_div_mod htake

theorem lenOfCount_toNat (n : Nat) : (lenOfCount n).toNat = min n 255 := by
  rw [lenOfCount, BitVec.toNat_ofNat]
  omega

theorem decodeColor_of_length {c : Config} {len : LenField} (data : DataField)
    (h : len.toNat < c.minLen ∨ c.maxLen < len.toNat) : decodeColor c data len = .error .invalidLength := if_pos h

/-- Settles O9: the fields of the packed word, and a saturated length that is still too long. -/
theorem writeEventCarriesItsPayload : Obligations.WriteEventCarriesItsPayload := by
  refine fun bytes => ⟨fun char => ⟨lenOfCount bytes.length, dataOfBytes bytes, decode_packInput_command ..,
    lenOfCount_toNat _, fun k hk => ?_⟩, fun hlong data => decodeColor_of_length data (.inr ?_)⟩
  · have hlt : k < bytes.length := by omega
    rw [payloadByte_dataOfBytes (by omega) (List.getElem?_eq_getElem hlt), List.getElem?_eq_getElem hlt]
  · rw [lenOfCount_toNat, params_maxLen]
    omega

end Sys2Proof.Machine
end

section
/-! The colour payload: the scan accepts exactly the grammar of R75, and what the length of the parse buffer leaves
room for (R107, R109). -/

namespace Sys2Proof.Machine

open Sys2Proof.Safety

/-! ### The scan and the grammar (R75, R104, R105) -/

theorem scanUnsigned_cons {b : Byte} {bs : List Byte} :
    scanUnsigned (b :: bs) = if isDigit b then some (scanDigits 0 (b :: bs)) else none := rfl

/-- An unsigned integer is scanned exactly where digits stand, all of them taken (R104). -/
theorem scanUnsigned_eq_some_iff {bs rest : List Byte} {v : Nat} :
    scanUnsigned bs = some (v, rest) ↔ ∃ digits, (digits ≠ [] ∧ ∀ b ∈ digits, isDigit b = true) ∧
      bs = digits ++ rest ∧ (∀ b, rest.head? = some b → isDigit b = false) ∧ v = decimalValue digits := by
  constructor
  · intro h
    cases bs with
    | nil => cases h
    | cons b bs =>
      rw [scanUnsigned_cons] at h
      split_ifs at h with hb
      obtain ⟨digits, hsplit, hdigits, hend, hvalue⟩ := scanDigits_split 0 (b :: bs)
      rw [Option.some.inj h] at hsplit hend hvalue
      refine ⟨digits, ⟨?_, hdigits⟩, hsplit, hend, hvalue⟩
      rintro rfl
      have hstop := hend b (by rw [← List.nil_append rest, ← hsplit]; rfl)
      simp [hb] at hstop
  · rintro ⟨digits, ⟨hne, hdigits⟩, rfl, hend, rfl⟩
    obtain ⟨b, ds, rfl⟩ := List.exists_cons_of_ne_nil hne
    rw [List.cons_append, scanUnsigned_cons, if_pos (hdigits b (by simp)), ← List.cons_append,
      scanDigits_append _ _ _ hdigits hend]
    rfl

theorem scanInt_minus {bs rest : List Byte} {v : Int} :
    scanInt (minusSign :: bs) = some (v, rest) ↔
      ∃ n : Nat, scanUnsigned bs = some (n, rest) ∧ v = -(n : Int) := by
  simp only [scanInt, if_true, Option.map_eq_some_iff, Prod.mk.injEq, Prod.exists]
  constructor
  · rintro ⟨n, _, h, rfl, rfl⟩
    exact ⟨n, h, rfl⟩
  · rintro ⟨n, h, rfl⟩
    exact ⟨n, _, h, rfl, rfl⟩

theorem scanInt_of_ne_minus {bs rest : List Byte} {v : Int} (hb : bs.head? ≠ some minusSign) :
    scanInt bs = some (v, rest) ↔ ∃ n : Nat, scanUnsigned bs = some (n, rest) ∧ v = (n : Int) := by
  cases bs with
  | nil => simp [scanInt, scanUnsigned]
  | cons b bs =>
    have hb : b ≠ minusSign := by simpa using hb
    simp only [scanInt, if_neg hb, Option.map_eq_some_iff, Prod.mk.injEq, Prod.exists]
    constructor
    · rintro ⟨n, _, h, rfl, rfl⟩
      exact ⟨n, h, rfl⟩
    · rintro ⟨n, h, rfl⟩
      exact ⟨n, _, h, rfl, rfl⟩

theorem head?_ne_minusSign_of_digits {digits rest : List Byte} (hne : digits ≠ [])
    (hdigits : ∀ b ∈ digits, isDigit b = true) : (digits ++ rest).head? ≠ some minusSign := by
  obtain ⟨b, ds, rfl⟩ := List.exists_cons_of_ne_nil hne
  intro h
  obtain rfl : b = minusSign := by simpa using h
  have := hdigits minusSign (by simp)
  rw [isDigit_minusSign] at this
  cases this

/-- An integer is scanned exactly where the text of one stands with no digit behind it (R75, R104). -/
theorem scanInt_eq_some_iff {bs rest : List Byte} {v : Int} :
    scanInt bs = some (v, rest) ↔ ∃ n : IntegerText, n.Valid ∧ bs = n.bytes ++ rest ∧
      (∀ b, rest.head? = some b → isDigit b = false) ∧ v = n.value := by
  constructor
  · intro h
    by_cases hminus : bs.head? = some minusSign
    · obtain ⟨bs, rfl⟩ : ∃ bs', bs = minusSign :: bs' := ⟨bs.tail, List.eq_cons_of_mem_head? hminus⟩
      obtain ⟨n, hscan, rfl⟩ := scanInt_minus.1 h
      obtain ⟨digits, hvalid, rfl, hend, rfl⟩ := scanUnsigned_eq_some_iff.1 hscan
      exact ⟨⟨true, digits⟩, hvalid, rfl, hend, rfl⟩
    · obtain ⟨n, hscan, rfl⟩ := (scanInt_of_ne_minus hminus).1 h
      obtain ⟨digits, hvalid, rfl, hend, rfl⟩ := scanUnsigned_eq_some_iff.1 hscan
      exact ⟨⟨false, digits⟩, hvalid, rfl, hend, rfl⟩
  · rintro ⟨⟨negative, digits⟩, hvalid, rfl, hend, rfl⟩
    have hscan := scanUnsigned_eq_some_iff.2 ⟨digits, hvalid, rfl, hend, rfl⟩
    cases negative with
    | true => exact scanInt_minus.2 ⟨_, hscan, rfl⟩
    | false => exact (scanInt_of_ne_minus (head?_ne_minusSign_of_digits hvalid.1 hvalid.2)).2 ⟨_, hscan, rfl⟩

/-- A comma and an integer behind it (R105). -/
theorem scanComma_bind_scanInt {bs rest : List Byte} {v : Int} :
    (scanComma bs).bind scanInt = some (v, rest) ↔
      ∃ after, bs = commaSign :: after ∧ scanInt after = some (v, rest) := by
  simp only [Option.bind_eq_some_iff, scanComma_eq_some]

/-- Three integers, the second and the third behind a comma (R105). -/
theorem scanTriplet_eq_some_iff {pbuf : List Byte} {v0 v1 v2 : Int} :
    scanTriplet pbuf = some (v0, v1, v2) ↔ ∃ p0 p1 rest, scanInt pbuf = some (v0, commaSign :: p0) ∧
      scanInt p0 = some (v1, commaSign :: p1) ∧ scanInt p1 = some (v2, rest) := by
  constructor
  · intro h
    unfold scanTriplet at h
    split at h
    · cases h
    next w0 q0 h0 =>
      split at h
      · cases h
      next w1 q1 h1 =>
        split at h
        · cases h
        next w2 rest h2 =>
          cases h
          obtain ⟨p0, rfl, h1⟩ := scanComma_bind_scanInt.1 h1
          obtain ⟨p1, rfl, h2⟩ := scanComma_bind_scanInt.1 h2
          exact ⟨p0, p1, rest, h0, h1, h2⟩
  · rintro ⟨p0, p1, rest, h0, h1, h2⟩
    simp only [scanTriplet, h0, scanComma_bind_scanInt.2 ⟨p0, rfl, h1⟩, scanComma_bind_scanInt.2 ⟨p1, rfl, h2⟩]

theorem head?_commaSign_isDigit (after : List Byte) (b : Byte) (h : (commaSign :: after).head? = some b) :
    isDigit b = false := by
  obtain rfl : commaSign = b := by simpa using h
  exact isDigit_commaSign

/-- The scan succeeds exactly on the payloads of the grammar, with the three values (R75, R76). -/
theorem scanTriplet_eq_some_iff_grammar {pbuf : List Byte} {v0 v1 v2 : Int} :
    scanTriplet pbuf = some (v0, v1, v2) ↔ ∃ n0 n1 n2 rest, MatchesGrammar pbuf n0 n1 n2 rest ∧
      v0 = n0.value ∧ v1 = n1.value ∧ v2 = n2.value := by
  rw [scanTriplet_eq_some_iff]
  constructor
  · rintro ⟨p0, p1, rest, h0, h1, h2⟩
    obtain ⟨n0, hv0, rfl, -, rfl⟩ := scanInt_eq_some_iff.1 h0
    obtain ⟨n1, hv1, rfl, -, rfl⟩ := scanInt_eq_some_iff.1 h1
    obtain ⟨n2, hv2, rfl, hend, rfl⟩ := scanInt_eq_some_iff.1 h2
    exact ⟨n0, n1, n2, rest, ⟨hv0, hv1, hv2, rfl, hend⟩, rfl, rfl, rfl⟩
  · rintro ⟨n0, n1, n2, rest, ⟨hv0, hv1, hv2, rfl, hend⟩, rfl, rfl, rfl⟩
    exact ⟨_, _, rest, scanInt_eq_some_iff.2 ⟨n0, hv0, rfl, head?_commaSign_isDigit _, rfl⟩,
      scanInt_eq_some_iff.2 ⟨n1, hv1, rfl, head?_commaSign_isDigit _, rfl⟩,
      scanInt_eq_some_iff.2 ⟨n2, hv2, rfl, hend, rfl⟩⟩

/-- The scan of a payload of the grammar. -/
theorem scanTriplet_of_grammar {pbuf rest : List Byte} {n0 n1 n2 : IntegerText}
    (h : MatchesGrammar pbuf n0 n1 n2 rest) : scanTriplet pbuf = some (n0.value, n1.value, n2.value) :=
  scanTriplet_eq_some_iff_grammar.2 ⟨n0, n1, n2, rest, h, rfl, rfl, rfl⟩

/-- `DecodeColor` answers a colour exactly on the payloads of legal length in the grammar. -/
theorem decodeColor_eq_ok_iff {c : Config} {data : DataField} {len : LenField} {col : Color} :
    decodeColor c data len = .ok col ↔ c.minLen ≤ len.toNat ∧ len.toNat ≤ c.maxLen ∧
      ∃ n0 n1 n2 rest, MatchesGrammar (fillBuffer c data len.toNat) n0 n1 n2 rest ∧
        col = ⟨clamp n0.value, clamp n1.value, clamp n2.value⟩ := by
  constructor
  · intro h
    rcases decodeColor_cases c data len with ⟨hd, -⟩ | ⟨hd, -⟩ | ⟨v0, v1, v2, hd, hmin, hmax, hscan⟩
    · rw [hd] at h
      cases h
    · rw [hd] at h
      cases h
    · rw [hd] at h
      cases h
      obtain ⟨n0, n1, n2, rest, hgrammar, rfl, rfl, rfl⟩ := scanTriplet_eq_some_iff_grammar.1 hscan
      exact ⟨hmin, hmax, n0, n1, n2, rest, hgrammar, rfl⟩
  · rintro ⟨hmin, hmax, n0, n1, n2, rest, hgrammar, rfl⟩
    exact decodeColor_of_scan hmin hmax (scanTriplet_of_grammar hgrammar)

theorem decodeColor_eq_invalidLength_iff {c : Config} {data : DataField} {len : LenField} :
    decodeColor c data len = .error .invalidLength ↔ len.toNat < c.minLen ∨ c.maxLen < len.toNat := by
  refine ⟨fun h => ?_, decodeColor_of_length data⟩
  rcases decodeColor_cases c data len with ⟨-, hlen⟩ | ⟨hd, -⟩ | ⟨v0, v1, v2, hd, -⟩
  · exact hlen
  · rw [hd] at h
    cases h
  · rw [hd] at h
    cases h

theorem decodeColor_eq_malformedPayload_iff {c : Config} {data : DataField} {len : LenField} :
    decodeColor c data len = .error .malformedPayload ↔ c.minLen ≤ len.toNat ∧ len.toNat ≤ c.maxLen ∧
      ¬ ∃ n0 n1 n2 rest, MatchesGrammar (fillBuffer c data len.toNat) n0 n1 n2 rest := by
  constructor
  · intro h
    rcases decodeColor_cases c data len with ⟨hd, -⟩ | ⟨-, hmin, hmax, hscan⟩ | ⟨v0, v1, v2, hd, -⟩
    · rw [hd] at h
      cases h
    · refine ⟨hmin, hmax, fun ⟨n0, n1, n2, rest, hgrammar⟩ => ?_⟩
      rw [scanTriplet_of_grammar hgrammar] at hscan
      cases hscan
    · rw [hd] at h
      cases h
  · rintro ⟨hmin, hmax, hno⟩
    rcases decodeColor_cases c data len with ⟨-, hlen⟩ | ⟨hd, -⟩ | ⟨v0, v1, v2, hd, -⟩
    · omega
    · exact hd
    · obtain ⟨-, -, n0, n1, n2, rest, hgrammar, -⟩ := decodeColor_eq_ok_iff.1 hd
      exact absurd ⟨n0, n1, n2, rest, hgrammar⟩ hno

/-- Settles O12: the three answers of `DecodeColor`, each by what it is answered for. -/
theorem decodeColorAcceptsExactlyTheGrammar : Obligations.DecodeColorAcceptsExactlyTheGrammar :=
  fun _ _ => ⟨decodeColor_eq_invalidLength_iff, decodeColor_eq_malformedPayload_iff, fun _ => decodeColor_eq_ok_iff⟩

/-! ### The room in the parse buffer (R102) -/

/-- Settles O10: position `k` of the buffer, below and above the length. -/
theorem parseBufferIsThePayloadPaddedWithZeros : Obligations.ParseBufferIsThePayloadPaddedWithZeros := by
  refine fun data len _ hmax => ⟨fillBuffer_length .., fun k hk => ?_, fun k hk hk10 => ?_⟩
  · rw [fillBuffer_getElem _ _ _ _ (by rw [params_pbufBytes]; omega), if_pos hk]
  · rw [fillBuffer_getElem _ _ _ _ (by rw [params_pbufBytes]; omega), if_neg (Nat.not_lt.2 hk)]

theorem length_integerText_bytes (n : IntegerText) :
    n.bytes.length = n.digits.length + if n.negative then 1 else 0 := by
  unfold IntegerText.bytes
  split <;> rfl

/-- The text of an integer ends with a digit (R75). -/
theorem getLast?_integerText_bytes {n : IntegerText} (h : n.Valid) :
    ∃ b, n.bytes.getLast? = some b ∧ isDigit b = true := by
  obtain ⟨hne, hdigits⟩ := h
  refine ⟨n.digits.getLast hne, ?_, hdigits _ (List.getLast_mem hne)⟩
  unfold IntegerText.bytes
  split <;> simp [List.getLast?_cons, List.getLast?_eq_some_getLast hne]

/-- The last byte of the parse buffer is 0 (R102). -/
theorem fillBuffer_getLast? {c : Config} (data : DataField) {len : Nat} (hmax : len ≤ c.maxLen) :
    (fillBuffer c data len).getLast? = some 0 := by
  rw [List.getLast?_eq_getElem?, fillBuffer_length, Config.pbufBytes, Nat.add_sub_cancel,
    fillBuffer_getElem _ _ _ _ (by rw [Config.pbufBytes]; omega), if_neg (Nat.not_lt.2 hmax)]

/-- The last byte of the buffer is no digit, so the third integer ends before it, and the three integers share
`MAX_LEN - 2` bytes (R107). -/
theorem length_bytes_le_of_grammar {c : Config} {data : DataField} {len : Nat} {n0 n1 n2 : IntegerText}
    {rest : List Byte} (hmax : len ≤ c.maxLen) (h : MatchesGrammar (fillBuffer c data len) n0 n1 n2 rest) :
    n0.bytes.length + n1.bytes.length + n2.bytes.length + 2 ≤ c.maxLen := by
  obtain ⟨-, -, hvalid, hbuf, -⟩ := h
  have hrest : rest ≠ [] := by
    rintro rfl
    obtain ⟨b, hlast, hdigit⟩ := getLast?_integerText_bytes hvalid
    have hzero := fillBuffer_getLast? data hmax
    rw [hbuf] at hzero
    obtain rfl : b = 0 := by simpa [List.getLast?_append, List.getLast?_cons, hlast] using hzero
    exact absurd hdigit (by decide)
  have hlen := congrArg List.length hbuf
  have hpos := List.length_pos_iff.2 hrest
  simp only [fillBuffer_length, Config.pbufBytes, List.length_append, List.length_cons] at hlen
  omega

/-- Digits hold a number below the power of ten of their count (R76). -/
theorem decimalValue_lt {digits : List Byte} (hdigits : ∀ b ∈ digits, isDigit b = true) :
    decimalValue digits < 10 ^ digits.length := by
  induction digits using List.reverseRecOn with
  | nil => decide
  | append_singleton ds d ih =>
    have hds := ih fun b hb => hdigits b (List.mem_append_left _ hb)
    have hd : digitValue d ≤ 9 := by
      have := hdigits d (by simp)
      simp only [isDigit, Bool.and_eq_true, decide_eq_true_eq] at this
      unfold digitValue
      omega
    unfold decimalValue at hds ⊢
    rw [List.foldl_append, List.length_append, List.length_singleton, Nat.pow_succ, List.foldl_cons, List.foldl_nil]
    omega

/-- An integer of at most six bytes, its sign among them, lies in the range of R107. -/
theorem integerText_value_mem_range {n : IntegerText} (h : n.Valid) (hlen : n.bytes.length ≤ 6) :
    -99999 ≤ n.value ∧ n.value ≤ 999999 := by
  have hlt := decimalValue_lt h.2
  rw [length_integerText_bytes] at hlen
  unfold IntegerText.value
  cases hn : n.negative with
  | true =>
    have hpow : 10 ^ n.digits.length ≤ 10 ^ 5 :=
      Nat.pow_le_pow_right (by decide) (Nat.le_of_succ_le_succ (by simpa only [hn, if_true] using hlen))
    rw [if_pos rfl]
    omega
  | false =>
    have hpow : 10 ^ n.digits.length ≤ 10 ^ 6 := Nat.pow_le_pow_right (by decide) (by simpa [hn] using hlen)
    rw [if_neg Bool.false_ne_true]
    omega

theorem length_integerText_bytes_pos {n : IntegerText} (h : n.Valid) : 1 ≤ n.bytes.length := by
  have := List.length_pos_iff.2 h.1
  rw [length_integerText_bytes]
  omega

/-- Settles O13: of the eight bytes that the three integers share, two go to the other two. -/
theorem scannedIntegersStayInRange : Obligations.ScannedIntegersStayInRange := by
  intro data len v0 v1 v2 _ hmax hscan
  obtain ⟨n0, n1, n2, rest, hgrammar, rfl, rfl, rfl⟩ := scanTriplet_eq_some_iff_grammar.1 hscan
  have hroom := length_bytes_le_of_grammar (c := params) hmax hgrammar
  rw [params_maxLen] at hroom
  obtain ⟨h0, h1, h2, -, -⟩ := hgrammar
  have hpos0 := length_integerText_bytes_pos h0
  have hpos1 := length_integerText_bytes_pos h1
  have hpos2 := length_integerText_bytes_pos h2
  simp only [List.forall_mem_cons]
  exact ⟨integerText_value_mem_range h0 (by omega), integerText_value_mem_range h1 (by omega),
    integerText_value_mem_range h2 (by omega), List.forall_mem_nil _⟩

/-! ### The colours that fit the port (R109) -/

/-- A clamped integer has no more digits than its text has bytes. -/
theorem decimalDigits_clamp_le {n : IntegerText} (h : n.Valid) : decimalDigits (clamp n.value) ≤ n.bytes.length := by
  have hlt := decimalValue_lt h.2
  have hpos := length_integerText_bytes_pos h
  have hclamp := clamp_toNat n.value
  rw [length_integerText_bytes] at hpos ⊢
  have hvalue : n.value ≤ decimalValue n.digits := by
    unfold IntegerText.value
    split <;> omega
  have hone : n.digits.length ≤ 1 → decimalValue n.digits < 10 := fun hl =>
    hlt.trans_le (Nat.pow_le_pow_right (by decide) hl)
  have htwo : n.digits.length ≤ 2 → decimalValue n.digits < 100 := fun hl =>
    hlt.trans_le (Nat.pow_le_pow_right (by decide) hl)
  have hne := List.length_pos_iff.2 h.1
  unfold decimalDigits
  split_ifs at hclamp ⊢ <;> omega

/-- The byte of a decimal digit. -/
def digitByte (d : Nat) : Byte := BitVec.ofNat 8 (0x30 + d)

/-- The plain decimal text of a channel value. -/
def decimalText (b : Byte) : List Byte :=
  if b.toNat < 10 then [digitByte b.toNat]
  else if b.toNat < 100 then [digitByte (b.toNat / 10), digitByte (b.toNat % 10)]
  else [digitByte (b.toNat / 100), digitByte (b.toNat / 10 % 10), digitByte (b.toNat % 10)]

theorem digitByte_toNat {d : Nat} (h : d < 10) : (digitByte d).toNat = 0x30 + d := by
  rw [digitByte, BitVec.toNat_ofNat]
  omega

theorem isDigit_digitByte {d : Nat} (h : d < 10) : isDigit (digitByte d) = true := by
  simp only [isDigit, digitByte_toNat h, Bool.and_eq_true, decide_eq_true_eq]
  omega

theorem digitValue_digitByte {d : Nat} (h : d < 10) : digitValue (digitByte d) = d := by
  rw [digitValue, digitByte_toNat h, Nat.add_sub_cancel_left]

/-- What the decimal text of a channel value is: its length, its digits, its value (R109). -/
theorem decimalText_spec (b : Byte) : (decimalText b).length = decimalDigits b ∧
    (∀ d ∈ decimalText b, isDigit d = true) ∧ decimalValue (decimalText b) = b.toNat := by
  have hb := b.isLt
  unfold decimalText decimalDigits
  split_ifs with h10 h100
  · refine ⟨rfl, by simp [isDigit_digitByte h10], ?_⟩
    simp [decimalValue, digitValue_digitByte h10]
  · have hd : b.toNat / 10 < 10 := by omega
    have hm : b.toNat % 10 < 10 := by omega
    refine ⟨rfl, by simp [isDigit_digitByte hd, isDigit_digitByte hm], ?_⟩
    simp only [decimalValue, List.foldl_cons, List.foldl_nil, digitValue_digitByte hd, digitValue_digitByte hm]
    omega
  · have hc : b.toNat / 100 < 10 := by omega
    have hd : b.toNat / 10 % 10 < 10 := by omega
    have hm : b.toNat % 10 < 10 := by omega
    refine ⟨rfl, by simp [isDigit_digitByte hc, isDigit_digitByte hd, isDigit_digitByte hm], ?_⟩
    simp only [decimalValue, List.foldl_cons, List.foldl_nil, digitValue_digitByte hc, digitValue_digitByte hd,
      digitValue_digitByte hm]
    omega

theorem decimalDigits_pos (b : Byte) : 1 ≤ decimalDigits b := by
  unfold decimalDigits
  split_ifs <;> decide

/-- The text of a channel value is an integer of the grammar. -/
theorem decimalText_valid (b : Byte) : IntegerText.Valid ⟨false, decimalText b⟩ := by
  obtain ⟨hlen, hdigits, -⟩ := decimalText_spec b
  refine ⟨fun hnil => ?_, hdigits⟩
  have := decimalDigits_pos b
  have hzero : (decimalText b).length = 0 := congrArg List.length hnil
  omega

theorem clamp_decimalText (b : Byte) : clamp (IntegerText.value ⟨false, decimalText b⟩) = b := by
  obtain ⟨-, -, hvalue⟩ := decimalText_spec b
  have hb := b.isLt
  apply BitVec.eq_of_toNat_eq
  rw [clamp_toNat]
  simp only [IntegerText.value, hvalue, Bool.false_eq_true, if_false]
  split_ifs <;> omega

/-- The text of a colour: its three channel values with commas between them. -/
def colorText (col : Color) : List Byte :=
  decimalText col.r ++ commaSign :: (decimalText col.g ++ commaSign :: decimalText col.b)

/-- A text that fits the port stands in the parse buffer with zeros behind it (R102). -/
theorem fillBuffer_dataOfBytes {c : Config} {bytes : List Byte} (hport : bytes.length ≤ 10)
    (hlen : bytes.length ≤ c.maxLen) :
    fillBuffer c (dataOfBytes bytes) bytes.length = bytes ++ List.replicate (c.pbufBytes - bytes.length) 0 := by
  apply List.ext_getElem?
  intro i
  by_cases hi : i < c.pbufBytes
  · rw [fillBuffer_getElem _ _ _ _ hi]
    by_cases hb : i < bytes.length
    · rw [if_pos hb, List.getElem?_append_left hb, List.getElem?_eq_getElem hb,
        payloadByte_dataOfBytes (by omega) (List.getElem?_eq_getElem hb)]
    · rw [if_neg hb, List.getElem?_append_right (by omega), List.getElem?_replicate, if_pos (by omega)]
  · rw [List.getElem?_eq_none (by rw [fillBuffer_length]; omega), List.getElem?_eq_none]
    simp only [List.length_append, List.length_replicate, Config.pbufBytes] at hi ⊢
    omega

/-- The text of a colour with anything but a digit behind it is of the grammar, with that colour's values. -/
theorem matchesGrammar_colorText (col : Color) {rest : List Byte}
    (hrest : ∀ b, rest.head? = some b → isDigit b = false) :
    MatchesGrammar (colorText col ++ rest) ⟨false, decimalText col.r⟩ ⟨false, decimalText col.g⟩
      ⟨false, decimalText col.b⟩ rest :=
  ⟨decimalText_valid _, decimalText_valid _, decimalText_valid _, by simp [colorText, IntegerText.bytes], hrest⟩

theorem length_colorText (col : Color) :
    (colorText col).length = decimalDigits col.r + decimalDigits col.g + decimalDigits col.b + 2 := by
  simp only [colorText, List.length_append, List.length_cons, (decimalText_spec _).1]
  omega

/-- A colour whose text fits the port is what `DecodeColor` answers for that text. -/
theorem decodeColor_colorText {col : Color} (h : (colorText col).length ≤ 10) :
    decodeColor params (dataOfBytes (colorText col)) (lenOfCount (colorText col).length) = .ok col := by
  have hlen : (lenOfCount (colorText col).length).toNat = (colorText col).length := by
    rw [lenOfCount_toNat]
    omega
  have hpos := length_colorText col
  refine decodeColor_eq_ok_iff.2 ⟨by rw [hlen, params_minLen]; omega, by rw [hlen]; exact h, ?_⟩
  have hzeros : ∀ b, (List.replicate (params.pbufBytes - (colorText col).length) (0 : Byte)).head? = some b →
      isDigit b = false := by
    intro b hb
    obtain rfl := List.eq_of_mem_replicate (List.mem_of_head? hb)
    decide
  rw [hlen, fillBuffer_dataOfBytes h h]
  exact ⟨_, _, _, _, matchesGrammar_colorText col hzeros, by simp only [clamp_decimalText]⟩

/-- Settles O14: the digits of a decoded colour fit beside two commas and the closing zero, and the plain text of any
colour that fits is decoded to it. -/
theorem commandableColorsHaveAtMostEightDigits : Obligations.CommandableColorsHaveAtMostEightDigits := by
  intro col
  constructor
  · rintro ⟨data, len, h⟩
    obtain ⟨-, hmax, n0, n1, n2, rest, hgrammar, rfl⟩ := decodeColor_eq_ok_iff.1 h
    have hroom := length_bytes_le_of_grammar hmax hgrammar
    obtain ⟨h0, h1, h2, -, -⟩ := hgrammar
    have hr := decimalDigits_clamp_le h0
    have hg := decimalDigits_clamp_le h1
    have hb := decimalDigits_clamp_le h2
    rw [params_maxLen] at hroom
    dsimp only
    omega
  · intro h
    exact ⟨_, _, decodeColor_colorText (by rw [length_colorText]; omega)⟩

end Sys2Proof.Machine
end

section
/-! The Waveform Encoder (R120 to R131): tick counts, frames, bits and durations. -/

namespace Sys2Proof.Machine

/-! ### Tick counts (R121 to R123) -/

theorem ticks_nearest (units f : Nat) :
    20000000 * ticks units f ≤ units * f + 10000000 ∧ units * f + 10000000 < 20000000 * (ticks units f + 1) := by
  unfold ticks
  generalize units * f = exact
  omega

/-- Settles O16: a division rounds down, here from half a tick above. -/
theorem tickCountsRoundToNearestHalfUp : Obligations.TickCountsRoundToNearestHalfUp :=
  ⟨ticks_nearest, fun _ => ⟨rfl, rfl, rfl, rfl⟩, by decide, by decide⟩

/-- The shortest part, 0.4 µs, has a tick exactly from 1250000 Hz on (R123). -/
theorem one_le_t0h_iff (f : Nat) : 1 ≤ (pulseSpecAt f).t0h ↔ minResolutionHz ≤ f := by
  unfold pulseSpecAt ticks minResolutionHz
  dsimp only
  omega

theorem ofParams_of_problem {p : Params} (h : ¬ p.Valid) : ∃ e, Config.ofParams p = .error e := by
  unfold Config.ofParams
  split
  next e _ => exact ⟨e, rfl⟩
  next hnone => exact absurd ((Params.problem_eq_none_iff p).1 hnone) h

/-- Settles O17: the shortest of the four parts decides. -/
theorem validRatesAreExactlyFrom1250000 : Obligations.ValidRatesAreExactlyFrom1250000 := by
  refine ⟨fun f => ⟨fun h => (one_le_t0h_iff f).1 h.1, pulseSpecAt_pos f⟩, fun p hlow => ofParams_of_problem ?_⟩
  rintro ⟨-, -, hrate, -⟩
  exact absurd hlow (Nat.not_lt.2 hrate)

/-! ### Frames (R125, R126) -/

/-- The first three bytes of a frame are green, red and blue. -/
theorem frameOf_head (c : Config) (col : Color) :
    (frameOf c col)[1]? = some col.r ∧ (frameOf c col)[0]? = some col.g ∧ (frameOf c col)[2]? = some col.b :=
  ⟨frameOf_getElem? c col (p := 0) (k := 1) c.valid.1 (by decide),
    frameOf_getElem? c col (p := 0) (k := 0) c.valid.1 (by decide),
    frameOf_getElem? c col (p := 0) (k := 2) c.valid.1 (by decide)⟩

theorem frameOf_injective (c : Config) {col col' : Color} (h : frameOf c col = frameOf c col') : col = col' := by
  obtain ⟨hr, hg, hb⟩ := frameOf_head c col
  obtain ⟨hr', hg', hb'⟩ := frameOf_head c col'
  rw [h] at hr hg hb
  cases col
  cases col'
  cases hr.symm.trans hr'
  cases hg.symm.trans hg'
  cases hb.symm.trans hb'
  rfl

/-- Settles O19: the first pixel record holds the colour. -/
theorem frameDeterminesItsColor : Obligations.FrameDeterminesItsColor := by
  intro c col
  obtain ⟨hr, hg, hb⟩ := frameOf_head c col
  exact ⟨hr, hg, hb, fun _ => frameOf_injective c⟩

/-! ### Bits (R127, R128) -/

/-- Settles O21: `Encode` works byte by byte. -/
theorem encodeOfConcatenationAddsNoGap : Obligations.EncodeOfConcatenationAddsNoGap := by
  intro ps f g
  rw [encodeFrame, List.flatMap_append, List.map_append, encodeFrame, encodeFrame]

@[simp] theorem length_flatMap_bitsOfByte (f : Frame) : (f.flatMap bitsOfByte).length = 8 * f.length := by
  induction f with
  | nil => rfl
  | cons b f ih =>
    rw [List.flatMap_cons, List.length_append, ih, bitsOfByte_length, List.length_cons]
    omega

/-- Bit `j` of those sent for byte `i` of a frame (R54, R127). -/
theorem flatMap_bitsOfByte_getElem? {f : Frame} {i j : Nat} {b : Byte} (hb : f[i]? = some b) (hj : j < 8) :
    (f.flatMap bitsOfByte)[8 * i + j]? = some (b.getLsbD (7 - j)) := by
  induction f generalizing i with
  | nil => simp at hb
  | cons a f ih =>
    rw [List.flatMap_cons]
    cases i with
    | zero =>
      obtain rfl : a = b := by simpa using hb
      rw [Nat.mul_zero, Nat.zero_add, List.getElem?_append_left (by simpa using hj), bitsOfByte_getElem _ _ hj]
    | succ i =>
      rw [List.getElem?_append_right (by rw [bitsOfByte_length]; omega), bitsOfByte_length,
        show 8 * (i + 1) + j - 8 = 8 * i + j by omega]
      exact ih (by simpa using hb)

theorem symbol_eq (ps : PulseSpec) (b : Bool) : symbol ps b = if b then (ps.t1h, ps.t1l) else (ps.t0h, ps.t0l) := by
  cases b <;> rfl

/-- Settles O20: the symbol of a bit stands where the bit stands among those sent. -/
theorem encodeEmitsTheSymbolOfEveryBit : Obligations.EncodeEmitsTheSymbolOfEveryBit := by
  refine fun ps f => ⟨by rw [encodeFrame, List.length_map, length_flatMap_bitsOfByte], fun i b k hb => ?_⟩
  have hk : 7 - (7 - k.val) = k.val := by omega
  rw [encodeFrame, List.getElem?_map, flatMap_bitsOfByte_getElem? hb (by omega), hk, ← symbol_eq]
  rfl

/-! ### Ticks and levels of a row of bits (R129, R131) -/

/-- The ticks that the symbols of a row of bits last. -/
def bitsTicks (ps : PulseSpec) (bits : List Bool) : Nat := (bits.map fun b => highTicks ps b + lowTicks ps b).sum

/-- The levels of the symbols of a row of bits. -/
def bitsWave (ps : PulseSpec) (bits : List Bool) : Waveform := bits.flatMap fun b => pulseWave (symbol ps b)

variable (ps : PulseSpec)

theorem duration_eq_bitsTicks (f : Frame) : duration ps f = bitsTicks ps (f.flatMap bitsOfByte) := by
  rw [duration, encodeFrame, List.map_map, bitsTicks]
  rfl

theorem wave_eq_bitsWave (f : Frame) : wave ps f = bitsWave ps (f.flatMap bitsOfByte) := by
  rw [wave, encodeFrame, List.flatMap_map, bitsWave]

@[simp] theorem bitsTicks_nil : bitsTicks ps [] = 0 := rfl

@[simp] theorem bitsTicks_cons (b : Bool) (bits : List Bool) :
    bitsTicks ps (b :: bits) = highTicks ps b + lowTicks ps b + bitsTicks ps bits := by simp [bitsTicks]

@[simp] theorem bitsTicks_append (bits bits' : List Bool) :
    bitsTicks ps (bits ++ bits') = bitsTicks ps bits + bitsTicks ps bits' := by simp [bitsTicks]

@[simp] theorem bitsWave_cons (b : Bool) (bits : List Bool) :
    bitsWave ps (b :: bits) = pulseWave (symbol ps b) ++ bitsWave ps bits := List.flatMap_cons

@[simp] theorem bitsWave_append (bits bits' : List Bool) :
    bitsWave ps (bits ++ bits') = bitsWave ps bits ++ bitsWave ps bits' := List.flatMap_append

/-- A waveform has one level per tick (R129). -/
@[simp] theorem length_bitsWave (bits : List Bool) : (bitsWave ps bits).length = bitsTicks ps bits := by
  induction bits with
  | nil => rfl
  | cons b bits ih =>
    rw [bitsWave_cons, List.length_append, ih, pulseWave_length, bitsTicks_cons]
    rfl

@[simp] theorem length_wave (f : Frame) : (wave ps f).length = duration ps f := by
  rw [wave_eq_bitsWave, length_bitsWave, duration_eq_bitsTicks]

/-- Every 0 bit lasts the ticks of the one symbol, every 1 bit those of the other (R131). -/
theorem bitsTicks_eq_counts (bits : List Bool) : bitsTicks ps bits =
    bits.count false * (ps.t0h + ps.t0l) + bits.count true * (ps.t1h + ps.t1l) := by
  induction bits with
  | nil => simp
  | cons b bits ih =>
    rw [bitsTicks_cons, ih]
    cases b with
    | false =>
      rw [List.count_cons_self, List.count_cons_of_ne (by decide), Nat.succ_mul]
      simp only [highTicks, lowTicks, Bool.false_eq_true, if_false]
      omega
    | true =>
      rw [List.count_cons_self, List.count_cons_of_ne (by decide), Nat.succ_mul]
      simp only [highTicks, lowTicks, if_true]
      omega

/-- At the reference rate both symbols last 25 ticks (R131). -/
theorem bitsTicks_reference (bits : List Bool) : bitsTicks (pulseSpecAt 20000000) bits = 25 * bits.length := by
  have hspec : pulseSpecAt 20000000 = ⟨8, 17, 16, 9⟩ := by decide
  have hcount := List.count_true_add_count_false (l := bits)
  rw [bitsTicks_eq_counts, hspec]
  dsimp only
  omega

/-- A frame of this block lasts 31200 ticks at the reference rate, whatever its colour (R131). -/
theorem duration_reference (col : Color) : duration (pulseSpecAt 20000000) (frameOf params col) = 31200 := by
  rw [duration_eq_bitsTicks, bitsTicks_reference, length_flatMap_bitsOfByte, frameOf_length, params_frameBytes]

/-- Settles O22: the duration bit by bit, and both symbols equally long at the reference rate. -/
theorem durationCountsZeroAndOneBits : Obligations.DurationCountsZeroAndOneBits :=
  ⟨fun ps f => ⟨length_wave ps f, by rw [duration_eq_bitsTicks, bitsTicks_eq_counts]⟩, duration_reference⟩

end Sys2Proof.Machine
end

section
/-! The operations (R170 to R181): what each answers, as the change it makes to what a `NOP` leaves, and where the
machine stops. -/

namespace Sys2Proof.Machine

open Sys2Proof.Safety

variable {c : Config} {s t u : State}

/-! ### Reset and the outputs -/

theorem step_of_rst (h : rstOf (nextInput s) = true) : step s = .next { State.reset with inputs := s.inputs.tail } := by
  rw [step, nextInstr, decode_of_rst h]
  rfl

/-- Settles O1: the reset values field by field, and the arm of `RESET`. -/
theorem resetStateHasTheSpecifiedValues : Obligations.ResetStateHasTheSpecifiedValues :=
  ⟨rfl, rfl, rfl, rfl, rfl, rfl, rfl, rfl, rfl, rfl, rfl, rfl, fun _ => step_of_rst⟩

/-- Settles O2: the arm of `RESET` reads nothing of the block, and a `NOP` behind it finds a frame waiting. -/
theorem resetReplacesEveryElement : Obligations.ResetReplacesEveryElement :=
  ⟨fun _ => decode_of_rst, fun _ =>
    ⟨_, _, rfl, rfl, rfl, exec_nop_start rfl (List.cons_ne_nil _ _), rfl, rfl, rfl, rfl⟩⟩

/-- Settles O23, output by output. -/
theorem outputsFollowTheState : Obligations.OutputsFollowTheState :=
  fun _ => ⟨Bool.and_eq_true_iff, rfl, rfl, rfl, rfl⟩

/-! ### A command and a `NOP` side by side (R196) -/

/-- A response alone changes nothing else of what a `NOP` leaves. -/
theorem serPhase_respond (h : serPhase c (noResponse s) = .next u) (st : Status) :
    serPhase c (respond st s) = .next { u with rspValid := true, rspStatus := st } := by
  obtain ⟨hpower, hcolor, -, -, hinputs, -⟩ := serPhase_frame h
  refine (serPhase_with h s.powerOn s.lastColor s.txDone true st s.inputs).trans ?_
  rw [hpower, hcolor, hinputs]
  rfl

/-- A `NOP` answers wherever the byte being played exists (R147). -/
theorem exists_nop (h : Playable s) : ∃ u, exec .nop s = .next u :=
  (serPhase_isNext_iff params (noResponse s)).2 h

theorem playable_queuePush (f : Frame) (h : Playable s) : Playable (queuePush f s) := by
  intro ha
  rw [currentBit_queuePush f (ne_nil_of_currentBit (h ha))]
  exact h ha

/-- A colour command that the decoder rejects. -/
theorem exec_setColor_of_error {len : LenField} {data : DataField} {e : DecodeError}
    (hd : decodeColor params data len = .error e) (h : exec .nop s = .next u) :
    exec (.setColor len data) s = .next { u with rspValid := true, rspStatus := decodeStatus e } := by
  rw [exec_setColor, doColor_of_error hd]
  exact serPhase_respond h _

/-- A power command that the decoder rejects. -/
theorem exec_setPower_of_error {len : LenField} {data : DataField} {e : DecodeError}
    (hd : decodePower data len = .error e) (h : exec .nop s = .next u) :
    exec (.setPower len data) s = .next { u with rspValid := true, rspStatus := decodeStatus e } := by
  rw [exec_setPower, doPower_of_error hd]
  exact serPhase_respond h _

/-- Settles O25: each outcome of `DoColor` is a response, for an accepted colour behind a push and a write of the
cache. -/
theorem setColorFollowsItsRule : Obligations.SetColorFollowsItsRule := by
  intro s len data hplay
  obtain ⟨u, hnop⟩ := exists_nop hplay
  refine ⟨fun hd => ⟨u, hnop, exec_setColor_of_error hd hnop⟩, fun hd => ⟨u, hnop, exec_setColor_of_error hd hnop⟩,
    fun col hd hfull => ⟨u, hnop, ?_⟩, fun col hd hfree => ?_⟩
  · rw [exec_setColor, doColor_of_full hd hfull]
    exact serPhase_respond hnop _
  · obtain ⟨v, hpushed⟩ := exists_nop (playable_queuePush (frameOf params col) hplay)
    refine ⟨v, hpushed, ?_⟩
    rw [exec_setColor, doColor_of_free hd hfree]
    exact serPhase_with_lastColor (serPhase_respond hpushed .ok) col

/-- Settles O26: each outcome of `DoPower` is a response, behind a write of the line when the length is 1, and behind
a push when the line goes up and a slot is free. -/
theorem setPowerFollowsItsRule : Obligations.SetPowerFollowsItsRule := by
  intro s len data hplay
  obtain ⟨u, hnop⟩ := exists_nop hplay
  obtain ⟨herror, hon, hoff⟩ := decodePowerReadsOneByte data len
  refine ⟨fun hlen => ⟨u, hnop, exec_setPower_of_error (herror hlen) hnop⟩, fun hlen hbyte => ⟨u, hnop, ?_⟩,
    fun hlen hbyte hfull => ⟨u, hnop, ?_⟩, fun hlen hbyte hfree => ?_⟩
  · rw [exec_setPower, doPower_of_off (hoff hlen hbyte)]
    exact serPhase_with_powerOn (serPhase_respond hnop .ok) false
  · rw [exec_setPower, doPower_of_full (hon hlen hbyte) hfull]
    exact serPhase_with_powerOn (serPhase_respond hnop .busy) true
  · obtain ⟨v, hpushed⟩ := exists_nop (playable_queuePush (frameOf params s.lastColor) hplay)
    refine ⟨v, hpushed, ?_⟩
    rw [exec_setPower, doPower_of_free (hon hlen hbyte) hfree]
    exact serPhase_with_powerOn (serPhase_respond hpushed .ok) true

/-- Settles O38: the line is carried along, and no colour command writes it. -/
theorem colorCommandsIgnoreThePowerLine : Obligations.ColorCommandsIgnoreThePowerLine := by
  intro s t len data line h
  have hphase : answered (doColor params len data { s with powerOn := line }) =
      { answered (doColor params len data s) with powerOn := line } := by
    obtain ⟨line', e⟩ := commandPhase_with_powerOn (c := params) (s := s) (.setColor len data) line
    have hline : line = line' :=
      (answered_doColor params len data { s with powerOn := line } _ rfl).1.symm.trans (congrArg State.powerOn e)
    rwa [← hline] at e
  rw [exec_setColor] at h ⊢
  rw [hphase]
  exact serPhase_with_powerOn h line

/-! ### The order of the two phases (R64) -/

theorem advance_of_last {n dur : Nat} {p : Position} (hcnt : dur ≤ p.cnt + 1) (hph : p.ph = false)
    (hbit : p.bitIdx = 0) (hbyte : n - 1 ≤ p.byteIdx) : advance n dur p = none := by
  have h₁ : ¬ p.cnt + 1 < dur := by omega
  have h₂ : ¬ p.byteIdx < n - 1 := by omega
  simp [advance, h₁, hph, hbit, h₂]

/-- The serializer phase of the last tick of a frame. -/
theorem serPhase_of_atLastTick (h : AtLastTick c s) : serPhase c s = .next (endFrame s) := by
  obtain ⟨ha, hbyte, hbit, hph, b, hb, hcnt⟩ := h
  rw [serPhase_play c ha hb, playTick_of_advance_none]
  exact advance_of_last (by rwa [hph, partTicks_low]) hph hbit hbyte.ge

/-- The serializer phase with a frame pushed into the queue of an idle block. -/
theorem serPhase_of_idle_push {r : State} (ha : r.act = false) {f : Frame} (hq : r.q = [f]) :
    ∃ t, serPhase c r = .next t ∧ t.q = [f] ∧ t.act = true ∧ t.pos = ⟨0, 7, true, 0⟩ ∧ dout t = true :=
  ⟨_, serPhase_start c ha (by simp [hq]), hq, rfl, rfl, rfl⟩

/-- Settles O27: the command phase finds the queue as it was, the serializer phase what the command phase left. -/
theorem commandPhaseRunsBeforeSerializerPhase : Obligations.CommandPhaseRunsBeforeSerializerPhase := by
  refine ⟨fun s len data col hlast hfull hd => ?_, fun s len data hlast hfull hd => ?_,
    fun s len data col ha hq hd => ?_, fun s len data ha hq hd => ?_⟩
  · rw [exec_setColor, doColor_of_full hd hfull.ge]
    exact ⟨_, serPhase_of_atLastTick (s := respond .busy s) hlast, rfl, rfl, rfl, rfl, rfl⟩
  · rw [exec_setPower, doPower_of_full hd hfull.ge]
    exact ⟨_, serPhase_of_atLastTick (s := respond .busy (setPowerLine true s)) hlast, rfl, rfl, rfl, rfl, rfl⟩
  · rw [exec_setColor, doColor_of_free hd (by simp [hq])]
    exact serPhase_of_idle_push (by exact ha) (by simp [answered, hq])
  · rw [exec_setPower, doPower_of_free hd (by simp [hq])]
    exact serPhase_of_idle_push (by exact ha) (by simp [answered, hq])

/-! ### Where the machine stops (U10) -/

theorem serPhase_of_no_frame (ha : s.act = true) (hq : s.q = []) : serPhase c s = .refused .noFrameInFlight := by
  simp [serPhase, ha, hq]

theorem serPhase_of_missing_byte {f : Frame} {rest : List Frame} (ha : s.act = true) (hq : s.q = f :: rest)
    (hbyte : f.length ≤ s.pos.byteIdx) : serPhase c s = .refused .byteIndexPastFrame := by
  simp [serPhase, currentBit, ha, hq, hbyte]

/-- An operation but `RESET` that leaves a head frame with the byte to be played answers a next state. -/
theorem exists_serPhase_of_byte {f : Frame} {rest : List Frame} (hq : s.q = f :: rest)
    (hbyte : s.pos.byteIdx < f.length) : ∃ t, serPhase c s = .next t :=
  (serPhase_isNext_iff c s).2 fun _ => by
    rw [currentBit_cons hq (List.getElem?_eq_getElem hbyte)]
    rfl

/-- Every operation answers where the byte being played exists: a push does not change that byte. -/
theorem exists_exec (i : Instr) (h : Playable s) : ∃ t, exec i s = .next t := by
  rw [exec_eq_execOn]
  by_cases hi : i = .reset
  · subst hi
    exact ⟨_, rfl⟩
  · rw [execOn_of_ne_reset hi]
    refine (serPhase_isNext_iff params _).2 fun ha => ?_
    rw [commandPhase_act] at ha
    rw [currentBit_commandPhase i (ne_nil_of_currentBit (h ha))]
    exact h ha

/-- Settles O28: the serializer phase stops where it finds no frame, or no byte in the head frame. -/
theorem onlyAMissingFrameByteStopsTheMachine : Obligations.OnlyAMissingFrameByteStopsTheMachine := by
  refine ⟨fun i s => exists_exec i, fun s => ⟨_, rfl⟩, fun i s hi ha hq => ?_, fun s f rest ha hq hbyte i hi => ?_⟩
  · have hphase : (commandPhase params i s).q = pushedFrames params i s := by rw [commandPhase_q, hq, List.nil_append]
    rw [exec_eq_execOn, execOn_of_ne_reset hi]
    refine ⟨fun hnone => ?_, fun f hpush hbyte => ?_, fun f hpush hbyte => ?_⟩
    · exact serPhase_of_no_frame ((commandPhase_act ..).trans ha) (hphase.trans hnone)
    · exact exists_serPhase_of_byte (hphase.trans hpush) (by rwa [commandPhase_pos])
    · exact serPhase_of_missing_byte ((commandPhase_act ..).trans ha) (hphase.trans hpush) (by rwa [commandPhase_pos])
  · rw [exec_eq_execOn, execOn_of_ne_reset hi]
    refine serPhase_of_missing_byte (f := f) (rest := rest ++ pushedFrames params i s) ((commandPhase_act ..).trans ha)
      ?_ (by rwa [commandPhase_pos])
    rw [commandPhase_q, hq, List.cons_append]

/-! ### The response registers (R181) -/

/-- Settles O31: the response registers are written by the command phase only. -/
theorem responseRegistersFollowTheTick : Obligations.ResponseRegistersFollowTheTick := by
  refine fun s t h => ⟨fun hrst => ?_, fun hrst hvalid => ?_, fun hrst hvalid hchar => ?_, fun hrst hvalid hchar => ?_⟩
  · rw [eq_reset_of_step h (decode_of_rst hrst)]
    exact ⟨rfl, rfl⟩
  · have hi : nextInstr s = .nop := decode_of_idle hrst hvalid
    obtain ⟨-, -, hv, hst⟩ := step_registers h (by simp [hi])
    rw [hv, hst, hi]
    exact ⟨rfl, rfl⟩
  · have hi := decode_of_color hrst hvalid hchar
    obtain ⟨-, -, hv, hst⟩ := step_registers h (by simp [nextInstr, hi])
    rw [hv, hst, nextInstr, hi]
    exact ⟨rfl, (doColor_status (s := popInput s)).trans (doColor_status (s := s)).symm⟩
  · have hi := decode_of_power hrst hvalid hchar
    obtain ⟨-, -, hv, hst⟩ := step_registers h (by simp [nextInstr, hi])
    rw [hv, hst, nextInstr, hi]
    exact ⟨rfl, (doPower_status (s := popInput s)).trans (doPower_status (s := s)).symm⟩

/-! ### What an operation leaves alone -/

/-- An operation but `RESET` that pushes nothing leaves the queue, or takes its head off. -/
theorem exec_q_of_no_push {i : Instr} (hi : i ≠ .reset) (hpush : pushedFrames params i s = [])
    (h : exec i s = .next t) : t.q = s.q ∨ t.q = s.q.tail := by
  rw [exec_eq_execOn, execOn_of_ne_reset hi] at h
  have hq := serPhase_q h
  rw [commandPhase_q, hpush, List.append_nil] at hq
  split_ifs at hq
  · exact .inr hq
  · exact .inl hq

theorem pushedFrames_setPower_of_off {len : LenField} {data : DataField} (h : payloadByte data 0 ≠ 0x31) :
    pushedFrames c (.setPower len data) s = [] := by
  obtain ⟨herror, -, hoff⟩ := decodePowerReadsOneByte data len
  by_cases hlen : len.toNat = 1
  · simp [pushedFrames, hoff hlen h]
  · simp [pushedFrames, herror hlen]

/-- Settles O33: what the command phase of each operation writes, and the head that the serializer phase may take. -/
theorem operationsLeaveOtherElementsAlone : Obligations.OperationsLeaveOtherElementsAlone := by
  refine ⟨fun s t h => ?_, fun s t len data h => ?_, fun s t len data h => ?_, fun s t h => exec_inputs h⟩
  · obtain ⟨hpower, hcolor, -, hstatus, -⟩ := serPhase_frame h
    exact ⟨hpower, hcolor, hstatus, exec_inputs h, exec_q_of_no_push (by decide) rfl h⟩
  · obtain ⟨hpower, hcolor, -, hstatus, -⟩ := serPhase_frame h
    obtain ⟨hline, -, -, -, -, hfail, -⟩ := answered_doColor params len data s _ rfl
    rw [← hstatus] at hfail
    exact ⟨hpower.trans hline, exec_inputs h, fun hne => hcolor.trans (hfail hne).1,
      fun hne => exec_q_of_no_push (by simp) (hfail hne).2 h⟩
  · obtain ⟨hpower, hcolor, -⟩ := serPhase_frame h
    obtain ⟨hcache, -, -, -, -, hline⟩ := answered_doPower params len data s _ rfl
    refine ⟨hcolor.trans hcache, exec_inputs h, fun hlen => hpower.trans ?_,
      fun hoff => exec_q_of_no_push (by simp) (pushedFrames_setPower_of_off hoff) h⟩
    rw [hline, decodePower_of_length_ne_one data hlen]

/-! ### A tick inside a frame, whatever the operation (R151) -/

/-- An operation but `RESET` moves the position inside the frame as the walk does. -/
theorem execOn_of_advance {i : Instr} {b : Bool} {p : Position} (hi : i ≠ .reset) (ha : s.act = true)
    (hb : currentBit s = some b)
    (h : advance c.frameBytes (partTicks (pulseSpec c) b s.pos.ph) s.pos = some p) :
    ∃ t, execOn c i s = .next t ∧ t.act = true ∧ t.pos = p ∧ t.txDone = false ∧ t.q = s.q ++ pushedFrames c i s := by
  have hbit := (currentBit_commandPhase (c := c) i (ne_nil_of_currentBit (by simp [hb]))).trans hb
  rw [execOn_of_ne_reset hi, serPhase_play c ((commandPhase_act ..).trans ha) hbit,
    playTick_of_advance (by rw [commandPhase_pos]; exact h)]
  exact ⟨_, rfl, rfl, rfl, rfl, commandPhase_q ..⟩

/-- At the end of a frame the serializer goes on exactly when a frame is left (R149). -/
theorem endFrame_act (s : State) : (endFrame s).act = decide ((endFrame s).q ≠ []) := by
  cases h : s.q.tail <;> simp [endFrame, h]

/-- An operation but `RESET` at the end of the walk takes the frame off the queue; the next one starts if it is
there (R149). -/
theorem execOn_of_advance_none {i : Instr} {b : Bool} (hi : i ≠ .reset) (ha : s.act = true)
    (hb : currentBit s = some b)
    (h : advance c.frameBytes (partTicks (pulseSpec c) b s.pos.ph) s.pos = none) :
    ∃ t, execOn c i s = .next t ∧ t.act = decide (t.q ≠ []) ∧ t.pos = Position.start ∧ t.txDone = true ∧
      t.q = s.q.tail ++ pushedFrames c i s := by
  have hq : s.q ≠ [] := ne_nil_of_currentBit (by simp [hb])
  have hbit := (currentBit_commandPhase (c := c) i hq).trans hb
  rw [execOn_of_ne_reset hi, serPhase_play c ((commandPhase_act ..).trans ha) hbit,
    playTick_of_advance_none (by rw [commandPhase_pos]; exact h)]
  exact ⟨_, rfl, endFrame_act _, rfl, rfl, by simp [endFrame, List.tail_append_of_ne_nil hq]⟩

/-- Settles O35: the walk of the frame in flight is that of a `NOP`, whichever operation a tick executes. -/
theorem onlyResetAltersTheFrameInFlight : Obligations.OnlyResetAltersTheFrameInFlight := by
  intro i s t u hi ha ht hu
  have hplay : ∃ b, currentBit s = some b := by
    rcases serPhase_next hu with ⟨hidle, -⟩ | ⟨hidle, -⟩ | ⟨b, -, hb, -⟩
    · exact absurd ha (by simp [show s.act = false from hidle])
    · exact absurd ha (by simp [show s.act = false from hidle])
    · exact ⟨b, hb⟩
  obtain ⟨b, hb⟩ := hplay
  rw [exec_eq_execOn] at ht hu
  have hone := length_pushedFrames_le_one params i s
  cases hadv : advance params.frameBytes (partTicks (pulseSpec params) b s.pos.ph) s.pos with
  | some p =>
    obtain ⟨t', ht', hact, hpos, hdone, hq⟩ := execOn_of_advance hi ha hb hadv
    obtain ⟨u', hu', -, hpos', hdone', hq'⟩ := execOn_of_advance (i := .nop) (by decide) ha hb hadv
    cases ht.symm.trans ht'
    cases hu.symm.trans hu'
    refine ⟨hpos.trans hpos'.symm, hdone.trans hdone'.symm, ?_, hone, fun _ => hact, fun h => ?_⟩
    · rw [hq, hq', pushedFrames, List.append_nil]
    · rw [hdone] at h
      cases h
  | none =>
    obtain ⟨t', ht', hact, hpos, hdone, hq⟩ := execOn_of_advance_none hi ha hb hadv
    obtain ⟨u', hu', -, hpos', hdone', hq'⟩ := execOn_of_advance_none (i := .nop) (by decide) ha hb hadv
    cases ht.symm.trans ht'
    cases hu.symm.trans hu'
    refine ⟨hpos.trans hpos'.symm, hdone.trans hdone'.symm, ?_, hone, fun h => ?_, fun _ => hact⟩
    · rw [hq, hq', pushedFrames, List.append_nil]
    · rw [hdone] at h
      cases h

/-! ### A run of rejected commands (R203) -/

/-- Two states that differ in the response registers and the host's list only. -/
def SameBlock (s u : State) : Prop :=
  s = { u with rspValid := s.rspValid, rspStatus := s.rspStatus, inputs := s.inputs }

theorem sameBlock_with_inputs (s : State) (inputs : List InputVec) : SameBlock s { s with inputs := inputs } := by
  rw [SameBlock]

/-- The serializer phase does the same in both (R147). -/
theorem sameBlock_serPhase (h : SameBlock s u) (ht : serPhase c s = .next t) :
    ∃ v, serPhase c u = .next v ∧ v.inputs = u.inputs ∧ SameBlock t v := by
  obtain ⟨hpower, hcolor, -, -, -, -⟩ := serPhase_frame ht
  have hu : u = { s with rspValid := u.rspValid, rspStatus := u.rspStatus, inputs := u.inputs } := by
    rw [h]
  have hwith := serPhase_with ht s.powerOn s.lastColor s.txDone u.rspValid u.rspStatus u.inputs
  rw [show { s with rspValid := u.rspValid, rspStatus := u.rspStatus, inputs := u.inputs } = u from hu.symm] at hwith
  refine ⟨_, hwith, rfl, ?_⟩
  rw [SameBlock, ← hpower, ← hcolor]

/-- The command phase of a rejected command writes the response registers only (R196). -/
theorem sameBlock_commandPhase_of_rejected {i : Instr} (hi : Rejected c i) :
    i ≠ .reset ∧ SameBlock (commandPhase c i s) (noResponse s) := by
  rcases hi with ⟨len, data, e, rfl, hd⟩ | ⟨len, data, e, rfl, hd⟩
  · exact ⟨by simp, by rw [commandPhase, doColor_of_error hd]; rfl⟩
  · exact ⟨by simp, by rw [commandPhase, doPower_of_error hd]; rfl⟩

/-- One tick of a rejected command beside one tick of a silent host. -/
theorem sameBlock_step (h : SameBlock s u) (hu : u.inputs = []) (hi : Rejected params (nextInstr s))
    (ht : step s = .next t) : ∃ v, step u = .next v ∧ v.inputs = [] ∧ SameBlock t v := by
  obtain ⟨hne, hphase⟩ := sameBlock_commandPhase_of_rejected (s := popInput s) hi
  rw [step_of_ne_reset hne] at ht
  have hsame : SameBlock (commandPhase params (nextInstr s) (popInput s)) (noResponse (popInput u)) := by
    rw [SameBlock] at hphase h ⊢
    rw [hphase, h]
    rfl
  obtain ⟨v, hv, hinputs, htv⟩ := sameBlock_serPhase hsame ht
  refine ⟨v, ?_, hinputs.trans (by simp [hu]), htv⟩
  rw [step_of_ne_reset (by simp [nextInstr_of_nil hu]), nextInstr_of_nil hu]
  exact hv

/-- A run of rejected commands beside a run of a silent host. -/
theorem sameBlock_run {n : Nat} (h : SameBlock s u) (hu : u.inputs = [])
    (hi : ∀ k < n, Rejected params (decode (inputAt s k))) (ht : Reaches n s t) :
    ∃ v, Reaches n u v ∧ SameBlock t v := by
  induction n generalizing s u with
  | zero =>
    obtain rfl := reaches_zero.1 ht
    exact ⟨u, reaches_zero.2 rfl, h⟩
  | succ n ih =>
    obtain ⟨s', hstep, hrun⟩ := reaches_succ.1 ht
    have hfirst := hi 0 (Nat.succ_pos n)
    rw [inputAt_zero] at hfirst
    obtain ⟨u', hstep', hu', hsame⟩ := sameBlock_step h hu hfirst hstep
    obtain ⟨v, hrun', hv⟩ := ih hsame hu' (fun k hk => by rw [inputAt_succ hstep]; exact hi _ (by omega)) hrun
    exact ⟨v, reaches_succ.2 ⟨u', hstep', hrun'⟩, hv⟩

/-- Settles O32: the two runs side by side, from states that differ in the host's list only. -/
theorem rejectedCommandsActLikeNops : Obligations.RejectedCommandsActLikeNops :=
  fun _ _ _ hi ht => sameBlock_run (sameBlock_with_inputs _ []) rfl hi ht

end Sys2Proof.Machine
end

section
/-! The walk of the serializer over a frame as a count of ticks: how far a position is into the waveform of its frame
(R147, R152, R153). -/

namespace Sys2Proof.Machine

open Sys2Proof.Safety

/-! ### Positions and the bits they point at (R146) -/

/-- How many bits of the frame have been sent at a position. -/
def bitsSent (p : Position) : Nat := 8 * p.byteIdx + (7 - p.bitIdx.val)

/-- The bit a position points at is the next one to be sent. -/
theorem flatMap_bitsOfByte_bitsSent (f : Frame) (p : Position) :
    (f.flatMap bitsOfByte)[bitsSent p]? = f[p.byteIdx]?.map fun byte => byte.getLsbD p.bitIdx := by
  have hbit := p.bitIdx.isLt
  cases hf : f[p.byteIdx]? with
  | none =>
    have hlen := List.getElem?_eq_none_iff.1 hf
    refine List.getElem?_eq_none ?_
    rw [length_flatMap_bitsOfByte, bitsSent]
    omega
  | some byte =>
    have hback : 7 - (7 - p.bitIdx.val) = p.bitIdx.val := by omega
    rw [bitsSent, flatMap_bitsOfByte_getElem? hf (by omega), hback]
    rfl

theorem currentBit_of_head? {s : State} {f : Frame} (h : s.q.head? = some f) :
    currentBit s = (f.flatMap bitsOfByte)[bitsSent s.pos]? := by
  rw [flatMap_bitsOfByte_bitsSent, currentBit]
  cases hq : s.q with
  | nil => simp [hq] at h
  | cons g rest =>
    obtain rfl : g = f := by simpa [hq] using h
    rfl

theorem bitsSent_pred {p : Position} (h : 0 < p.bitIdx) (ph : Bool) (cnt : Nat) :
    bitsSent { p with bitIdx := p.bitIdx - 1, ph := ph, cnt := cnt } = bitsSent p + 1 := by
  have hval : (p.bitIdx - 1).val = p.bitIdx.val - 1 := Fin.val_sub_one_of_ne_zero (Fin.pos_iff_ne_zero.1 h)
  have hpos : 0 < p.bitIdx.val := h
  have hlt := p.bitIdx.isLt
  simp only [bitsSent, hval]
  omega

theorem bitsSent_next_byte {p : Position} (h : p.bitIdx = 0) (ph : Bool) (cnt : Nat) :
    bitsSent ⟨p.byteIdx + 1, 7, ph, cnt⟩ = bitsSent p + 1 := by
  simp only [bitsSent, h]
  rfl

/-! ### Ticks passed (R152) -/

/-- The position `p` is tick `n` of the frame: `n` is the ticks of the bits sent, of the high part of the bit `b` being
played when that is over, and of the part being played. -/
def AtTick (ps : PulseSpec) (f : Frame) (n : Nat) (p : Position) : Prop :=
  ∃ sent b left, f.flatMap bitsOfByte = sent ++ b :: left ∧ sent.length = bitsSent p ∧
    p.cnt < partTicks ps b p.ph ∧ n = bitsTicks ps sent + (if p.ph then 0 else highTicks ps b) + p.cnt

variable {ps : PulseSpec} {f : Frame} {n : Nat} {p : Position}

/-- At tick `n` the wire has the level of the waveform at `n` (R153). -/
theorem wave_getElem?_of_atTick (h : AtTick ps f n p) : (wave ps f)[n]? = some p.ph := by
  obtain ⟨sent, b, left, hbits, -, hcnt, rfl⟩ := h
  rw [wave_eq_bitsWave, hbits, bitsWave_append, List.getElem?_append_right (by rw [length_bitsWave]; omega),
    length_bitsWave, Nat.add_assoc, Nat.add_sub_cancel_left, bitsWave_cons]
  cases hph : p.ph with
  | true =>
    rw [hph, partTicks_high] at hcnt
    simp [pulseWave, symbol, hcnt, List.getElem?_append_left]
  | false =>
    rw [hph, partTicks_low] at hcnt
    simp [pulseWave, symbol, hcnt, List.getElem?_append_left, List.getElem?_append_right]

/-- The first position is tick 0. -/
theorem atTick_start (hparts : ∀ b ph, 1 ≤ partTicks ps b ph) (hf : f ≠ []) : AtTick ps f 0 Position.start := by
  obtain ⟨byte, rest, rfl⟩ := List.exists_cons_of_ne_nil hf
  exact ⟨[], byte.getLsbD 7, _, rfl, rfl, hparts _ true, rfl⟩

/-- Every position at a byte of the frame, with its count inside the part, is some tick of it. -/
theorem exists_atTick {b : Bool} (hb : (f.flatMap bitsOfByte)[bitsSent p]? = some b)
    (hcnt : p.cnt < partTicks ps b p.ph) : ∃ n, AtTick ps f n p := by
  obtain ⟨hlt, hget⟩ := List.getElem?_eq_some_iff.1 hb
  refine ⟨_, (f.flatMap bitsOfByte).take (bitsSent p), b, (f.flatMap bitsOfByte).drop (bitsSent p + 1), ?_, ?_, hcnt,
    rfl⟩
  · rw [← hget, ← List.drop_eq_getElem_cons hlt, List.take_append_drop]
  · rw [List.length_take, Nat.min_eq_left hlt.le]

theorem lt_duration_of_atTick (h : AtTick ps f n p) : n < duration ps f := by
  obtain ⟨hlt, -⟩ := List.getElem?_eq_some_iff.1 (wave_getElem?_of_atTick h)
  rwa [length_wave] at hlt

/-- The first tick of the bit behind the one whose low part ends. -/
theorem atTick_next_bit {p' : Position} {sent left : List Bool} {b : Bool} (hparts : ∀ b ph, 1 ≤ partTicks ps b ph)
    (hbits : f.flatMap bitsOfByte = sent ++ b :: left) (hsent : sent.length = bitsSent p) (hleft : left ≠ [])
    (hnext : bitsSent p' = bitsSent p + 1) (hph : p'.ph = true) (hcnt : p'.cnt = 0) :
    AtTick ps f (bitsTicks ps sent + highTicks ps b + lowTicks ps b) p' := by
  obtain ⟨b', left', rfl⟩ := List.exists_cons_of_ne_nil hleft
  refine ⟨sent ++ [b], b', left', by simp [hbits], by simp [hsent, hnext], hcnt ▸ hparts b' _, ?_⟩
  simp [hph, hcnt, Nat.add_assoc]

/-- One tick of the walk: the next tick of the frame, or its end when the waveform is over (R147, R149). -/
theorem advance_of_atTick {b : Bool} (hparts : ∀ b ph, 1 ≤ partTicks ps b ph) (h : AtTick ps f n p)
    (hb : (f.flatMap bitsOfByte)[bitsSent p]? = some b) :
    (∃ p', advance f.length (partTicks ps b p.ph) p = some p' ∧ AtTick ps f (n + 1) p') ∨
      (advance f.length (partTicks ps b p.ph) p = none ∧ n + 1 = duration ps f) := by
  obtain ⟨sent, b', left, hbits, hsent, hcnt, rfl⟩ := h
  obtain rfl : b' = b := by simpa [hbits, ← hsent] using hb
  have hlen := congrArg List.length hbits
  simp only [length_flatMap_bitsOfByte, List.length_append, List.length_cons, hsent] at hlen
  have hend : p.ph = false → partTicks ps b' p.ph ≤ p.cnt + 1 →
      bitsTicks ps sent + (if p.ph then 0 else highTicks ps b') + p.cnt + 1 =
        bitsTicks ps sent + highTicks ps b' + lowTicks ps b' := by
    intro hph hdur
    rw [hph, partTicks_low] at hcnt hdur
    rw [hph, if_neg Bool.false_ne_true]
    omega
  rcases advance_cases f.length (partTicks ps b' p.ph) p with
    ⟨hdur, e⟩ | ⟨hdur, hph, e⟩ | ⟨hdur, hph, hbit, e⟩ | ⟨hdur, hph, hbit, hbyte, e⟩ | ⟨hdur, hph, hbit, hbyte, e⟩
  · exact .inl ⟨_, e, sent, b', left, hbits, hsent, hdur, rfl⟩
  · refine .inl ⟨_, e, sent, b', left, hbits, hsent, hparts b' false, ?_⟩
    rw [hph, partTicks_high] at hcnt hdur
    simp only [hph, if_true, Bool.false_eq_true, if_false]
    omega
  · have hleft : left ≠ [] := by
      rintro rfl
      have hpos : 0 < p.bitIdx.val := hbit
      have hlt := p.bitIdx.isLt
      simp only [bitsSent, List.length_nil] at hlen
      omega
    rw [hend hph hdur]
    exact .inl ⟨_, e, atTick_next_bit hparts hbits hsent hleft (bitsSent_pred hbit true 0) rfl rfl⟩
  · have hleft : left ≠ [] := by
      rintro rfl
      simp only [bitsSent, hbit, List.length_nil] at hlen
      omega
    rw [hend hph hdur]
    exact .inl ⟨_, e, atTick_next_bit hparts hbits hsent hleft (bitsSent_next_byte hbit true 0) rfl rfl⟩
  · have hleft : left = [] := by
      refine List.length_eq_zero_iff.1 ?_
      simp only [bitsSent, hbit] at hlen
      omega
    refine .inr ⟨e, ?_⟩
    rw [hend hph hdur, duration_eq_bitsTicks, hbits, hleft]
    simp [Nat.add_assoc]

end Sys2Proof.Machine
end

section
/-! Runs (R8, R63): their parts, the queue over a run, and runs in which nothing is commanded. -/

namespace Sys2Proof.Machine

open Sys2Proof.Safety

variable {s t u : State} {m n : Nat}

/-! ### The parts of a run -/

theorem reaches_one (h : step s = .next t) : Reaches 1 s t := reaches_succ.2 ⟨t, h, reaches_zero.2 rfl⟩

/-- A run behind a run. -/
theorem reaches_add (hs : Reaches m s t) (ht : Reaches n t u) : Reaches (m + n) s u := by
  induction m generalizing s with
  | zero =>
    obtain rfl := reaches_zero.1 hs
    rwa [Nat.zero_add]
  | succ m ih =>
    obtain ⟨s', hstep, hrun⟩ := reaches_succ.1 hs
    rw [Nat.add_right_comm]
    exact reaches_succ.2 ⟨s', hstep, ih hrun⟩

theorem observe_add (hs : Reaches m s t) (n : Nat) : observe (m + n) s = observe m s ++ observe n t := by
  induction m generalizing s with
  | zero =>
    obtain rfl := reaches_zero.1 hs
    rw [Nat.zero_add]
    rfl
  | succ m ih =>
    obtain ⟨s', hstep, hrun⟩ := reaches_succ.1 hs
    rw [Nat.add_right_comm, observe_succ hstep, observe_succ hstep, ih hrun, List.cons_append]

theorem completionsIn_zero (s : State) : completionsIn 0 s = 0 := by
  rw [completionsIn, observe]
  cases step s <;> rfl

theorem completionsIn_add (hs : Reaches m s t) (n : Nat) :
    completionsIn (m + n) s = completionsIn m s + completionsIn n t := by
  induction m generalizing s with
  | zero =>
    obtain rfl := reaches_zero.1 hs
    rw [Nat.zero_add, completionsIn_zero, Nat.zero_add]
  | succ m ih =>
    obtain ⟨s', hstep, hrun⟩ := reaches_succ.1 hs
    rw [Nat.add_right_comm, completionsIn_succ hstep, completionsIn_succ hstep, ih hrun, Nat.add_assoc]

/-- One tick at the front of the frames pushed. -/
theorem pushedIn_succ (h : step s = .next t) :
    pushedIn (n + 1) s = pushedFrames params (nextInstr s) s ++ pushedIn n t := by rw [pushedIn, h]

theorem inputAt_of_reaches (h : Reaches m s t) (k : Nat) : inputAt t k = inputAt s (m + k) := by
  induction m generalizing s with
  | zero =>
    obtain rfl := reaches_zero.1 h
    rw [Nat.zero_add]
  | succ m ih =>
    obtain ⟨s', hstep, hrun⟩ := reaches_succ.1 h
    rw [ih hrun, inputAt_succ hstep, Nat.add_right_comm]

/-! ### The queue over a run (R34, R63) -/

/-- The queue over one tick without reset. -/
theorem step_q (hi : nextInstr s ≠ .reset) (h : step s = .next t) :
    t.q = (if t.txDone then (s.q ++ pushedFrames params (nextInstr s) s).tail
      else s.q ++ pushedFrames params (nextInstr s) s) ∧
    (t.txDone = true → s.q ++ pushedFrames params (nextInstr s) s ≠ []) := by
  obtain ⟨-, hq, hdone⟩ := queueMovesOnlyAtItsEnds (nextInstr s) (popInput s) t hi h
  rw [pushedFrames_popInput] at hq hdone
  exact ⟨hq, fun h => (hdone h).2.1⟩

/-- Settles O45, by induction on the ticks: each appends what it pushes and drops what it completes. -/
theorem framesLeaveInPushOrder : Obligations.FramesLeaveInPushOrder := by
  intro n s t hn hrun
  induction n generalizing s with
  | zero =>
    obtain rfl := reaches_zero.1 hrun
    simp [completionsIn_zero, pushedIn]
  | succ n ih =>
    obtain ⟨s', hstep, hrun'⟩ := reaches_succ.1 hrun
    obtain ⟨hi, hn'⟩ := noResetFor_succ hstep hn
    obtain ⟨hq, hne⟩ := step_q hi hstep
    obtain ⟨hle, htq⟩ := ih s' hn' hrun'
    rw [completionsIn_succ hstep, pushedIn_succ hstep, ← List.append_assoc]
    cases hdone : s'.txDone with
    | false =>
      rw [hdone, if_neg Bool.false_ne_true] at hq
      rw [if_neg Bool.false_ne_true, Nat.zero_add, ← hq]
      rw [hq, List.length_append] at hle
      exact ⟨by rw [List.length_append]; omega, htq⟩
    | true =>
      obtain ⟨f, rest, hcons⟩ := List.exists_cons_of_ne_nil (hne hdone)
      rw [hdone, if_pos rfl, hcons, List.tail_cons] at hq
      rw [if_pos rfl, hcons, List.cons_append, Nat.add_comm 1, List.drop_succ_cons, ← hq]
      have hlen := congrArg List.length hcons
      rw [List.length_append, List.length_cons, ← hq] at hlen
      exact ⟨by rw [List.length_append]; omega, htq⟩

theorem nextInstr_ne_reset_of_noResetFor (h : NoResetFor (n + 1) s) : nextInstr s ≠ .reset := by
  have hfirst := h 0 (Nat.succ_pos n)
  rwa [inputAt_zero] at hfirst

/-! ### Runs in which nothing is commanded (R172) -/

/-- The next `n` ticks are `NOP`s. -/
abbrev NopsFor (n : Nat) (s : State) : Prop := ∀ k < n, decode (inputAt s k) = .nop

theorem nopsFor_of_silent (h : s.inputs = []) (n : Nat) : NopsFor n s := by
  intro k _
  have hk : inputAt s k = silentInput := by rw [inputAt, h, List.getD_nil]
  rw [hk]
  decide

theorem noResetFor_of_nopsFor (h : NopsFor n s) : NoResetFor n s := fun k hk => by
  rw [h k hk]
  decide

theorem nopsFor_mono (h : NopsFor n s) (hm : m ≤ n) : NopsFor m s := fun k hk => h k (hk.trans_le hm)

theorem nopsFor_of_reaches (h : NopsFor (m + n) s) (hrun : Reaches m s t) : NopsFor n t := fun k hk => by
  rw [inputAt_of_reaches hrun]
  exact h _ (Nat.add_lt_add_left hk m)

theorem nextInstr_of_nopsFor (h : NopsFor (n + 1) s) : nextInstr s = .nop := by
  have hfirst := h 0 (Nat.succ_pos n)
  rwa [inputAt_zero] at hfirst

theorem nopsFor_succ (hstep : step s = .next t) (h : NopsFor (n + 1) s) : NopsFor n t := fun k hk => by
  rw [inputAt_succ hstep]
  exact h _ (Nat.succ_lt_succ hk)

theorem pushedIn_of_nopsFor (h : NopsFor n s) (hrun : Reaches n s t) : pushedIn n s = [] := by
  induction n generalizing s with
  | zero => rfl
  | succ n ih =>
    obtain ⟨s', hstep, hrun'⟩ := reaches_succ.1 hrun
    rw [pushedIn_succ hstep, nextInstr_of_nopsFor h, ih (nopsFor_succ hstep h) hrun']
    rfl

theorem inputs_of_silent_run (h : s.inputs = []) (hrun : Reaches n s t) : t.inputs = [] := by
  induction n generalizing s with
  | zero =>
    obtain rfl := reaches_zero.1 hrun
    exact h
  | succ n ih =>
    obtain ⟨s', hstep, hrun'⟩ := reaches_succ.1 hrun
    exact ih (by rw [step_inputs hstep, h, List.tail_nil]) hrun'

/-- A block at rest stays there while nothing is commanded (R147, R182). -/
theorem rest_run (hrest : AtRest s) (h : NopsFor n s) :
    ∃ t, Reaches n s t ∧ AtRest t ∧ (t.txDone = true ↔ n = 0 ∧ s.txDone = true) := by
  induction n generalizing s with
  | zero => exact ⟨s, reaches_zero.2 rfl, hrest, by simp⟩
  | succ n ih =>
    obtain ⟨hq, ha⟩ := hrest
    obtain ⟨s', hstep, hrest', hclear⟩ : ∃ s', step s = .next s' ∧ AtRest s' ∧ s'.txDone = false := by
      rw [step, nextInstr_of_nopsFor h]
      exact ⟨_, exec_nop_idle ha hq, ⟨hq, ha⟩, rfl⟩
    obtain ⟨t, hrun, ht, hdone⟩ := ih hrest' (nopsFor_succ hstep h)
    exact ⟨t, reaches_succ.2 ⟨s', hstep, hrun⟩, ht, by simp [hdone, hclear]⟩

end Sys2Proof.Machine
end

section
/-! Transmissions (R147 to R153, R182, R223): a frame in flight plays its waveform, and frames play back to back. -/

namespace Sys2Proof.Machine

open Sys2Proof.Safety

variable {s t : State} {f : Frame} {k n : Nat}

/-! ### A frame in flight -/

/-- The duration of a frame at the rate of this block. -/
abbrev ticksOf (f : Frame) : Nat := duration (pulseSpec params) f

/-- The block is at tick `n` of the transmission of `f`, a frame of its size. -/
structure Playing (f : Frame) (n : Nat) (s : State) : Prop where
  act : s.act = true
  head : s.q.head? = some f
  size : f.length = params.frameBytes
  tick : AtTick (pulseSpec params) f n s.pos

/-- What the last tick of a frame leaves: the completion flag, and an idle serializer or one at the first tick of the
next frame (R149). -/
structure FrameEnded (s : State) : Prop where
  act : s.act = decide (s.q ≠ [])
  pos : s.pos = Position.start
  done : s.txDone = true

/-- While a frame plays, the wire has the level of its waveform (R153). -/
theorem wave_getElem?_of_playing (h : Playing f n s) : (wave (pulseSpec params) f)[n]? = some (dout s) := by
  rw [wave_getElem?_of_atTick h.tick, dout, h.act, Bool.true_and]

theorem lt_ticksOf_of_playing (h : Playing f n s) : n < ticksOf f := lt_duration_of_atTick h.tick

theorem playing_of_start (ha : s.act = true) (hpos : s.pos = Position.start) (hhead : s.q.head? = some f)
    (hsize : f.length = params.frameBytes) : Playing f 0 s := by
  have hne : f ≠ [] := by
    rintro rfl
    cases hsize
  exact ⟨ha, hhead, hsize, hpos ▸ atTick_start (partTicks_pos params) hne⟩

/-- A state that meets the invariants with `act = 1` is at some tick of its head frame (R152). -/
theorem exists_playing_of_inv (h : Inv params s) (ha : s.act = true) : ∃ f n, Playing f n s := by
  obtain ⟨f, rest, hq⟩ := List.exists_cons_of_ne_nil (h.actHasFrame ha)
  have hhead : s.q.head? = some f := by rw [hq, List.head?_cons]
  obtain ⟨col, hcol⟩ := h.framesBroadcast f (by simp [hq])
  obtain ⟨b, hb⟩ := currentBit_of_playReady (playReady_of_inv h) ha
  obtain ⟨n, hn⟩ := exists_atTick ((currentBit_of_head? hhead).symm.trans hb) (h.countInPart b ha hb)
  exact ⟨f, n, ha, hhead, hcol ▸ frameOf_length params col, hn⟩

/-- One tick without reset of a transmission: the next tick of it, or its end (R151, R153). -/
theorem step_of_playing (h : Playing f n s) (hi : nextInstr s ≠ .reset) :
    (∃ t, step s = .next t ∧ Playing f (n + 1) t ∧ t.txDone = false ∧
      t.q = s.q ++ pushedFrames params (nextInstr s) s) ∨
    (n + 1 = ticksOf f ∧ ∃ t, step s = .next t ∧ FrameEnded t) := by
  obtain ⟨ha, hhead, hsize, htick⟩ := h
  obtain ⟨b, hb⟩ : ∃ b, currentBit s = some b := by
    obtain ⟨sent, b, left, hbits, hsent, -⟩ := htick
    exact ⟨b, by simp [currentBit_of_head? hhead, hbits, ← hsent]⟩
  rw [step_eq_stepOn]
  rcases advance_of_atTick (partTicks_pos params) htick ((currentBit_of_head? hhead).symm.trans hb) with
    ⟨p, hadv, hp⟩ | ⟨hadv, hlast⟩
  · rw [hsize] at hadv
    obtain ⟨t, ht, hact, hpos, hdone, hq⟩ := execOn_of_advance (s := popInput s) hi ha hb hadv
    rw [popInput_q, pushedFrames_popInput] at hq
    refine .inl ⟨t, ht, ⟨hact, ?_, hsize, hpos ▸ hp⟩, hdone, hq⟩
    rw [hq, List.head?_append, hhead, Option.some_or]
  · rw [hsize] at hadv
    obtain ⟨t, ht, hact, hpos, hdone, -⟩ := execOn_of_advance_none (s := popInput s) hi ha hb hadv
    exact .inr ⟨hlast, t, ht, hact, hpos, hdone⟩

/-- The ticks inside a transmission, whatever commands arrive (R153). -/
theorem playing_run (h : Playing f n s) (hr : NoResetFor k s) (hk : n + k < ticksOf f) :
    ∃ t, Reaches k s t ∧ Playing f (n + k) t ∧ t.q = s.q ++ pushedIn k s ∧ (0 < k → t.txDone = false) := by
  induction k generalizing s n with
  | zero => exact ⟨s, reaches_zero.2 rfl, h, (List.append_nil _).symm, fun h => absurd h (Nat.lt_irrefl 0)⟩
  | succ k ih =>
    rcases step_of_playing h (nextInstr_ne_reset_of_noResetFor hr) with ⟨t, hstep, ht, hclear, hq⟩ | ⟨hlast, -⟩
    · obtain ⟨u, hrun, hu, hq', hdone⟩ := ih ht (noResetFor_succ hstep hr).2 (by omega)
      refine ⟨u, reaches_succ.2 ⟨t, hstep, hrun⟩, by rwa [Nat.add_right_comm] at hu, ?_, fun _ => ?_⟩
      · rw [hq', hq, pushedIn_succ hstep, List.append_assoc]
      · cases k with
        | zero => exact reaches_zero.1 hrun ▸ hclear
        | succ k => exact hdone (Nat.succ_pos k)
    · omega

/-- The rest of a transmission, to its end: what is left of the waveform, then one completion (R153, R154). -/
theorem playing_to_end (h : Playing f n s) (hk : n + k = ticksOf f) (hr : NoResetFor k s) :
    ∃ t, Reaches k s t ∧ FrameEnded t ∧ (observe k s).map Outputs.dout = (wave (pulseSpec params) f).drop n ∧
      completionsIn k s = 1 := by
  induction k generalizing s n with
  | zero => exact absurd (lt_ticksOf_of_playing h) (by omega)
  | succ k ih =>
    have hlevel : (wave (pulseSpec params) f).drop n = dout s :: (wave (pulseSpec params) f).drop (n + 1) := by
      obtain ⟨hlt, hget⟩ := List.getElem?_eq_some_iff.1 (wave_getElem?_of_playing h)
      rw [List.drop_eq_getElem_cons hlt, hget]
    rcases step_of_playing h (nextInstr_ne_reset_of_noResetFor hr) with
      ⟨t, hstep, ht, hclear, -⟩ | ⟨hlast, t, hstep, ht⟩
    · obtain ⟨u, hrun, hu, hlevels, hcount⟩ := ih ht (by omega) (noResetFor_succ hstep hr).2
      refine ⟨u, reaches_succ.2 ⟨t, hstep, hrun⟩, hu, ?_, ?_⟩
      · rw [observe_succ hstep, List.map_cons, hlevels, hlevel]
        rfl
      · rw [completionsIn_succ hstep, hclear, if_neg Bool.false_ne_true, hcount]
    · obtain rfl : k = 0 := by omega
      refine ⟨t, reaches_one hstep, ht, ?_, ?_⟩
      · rw [observe_succ hstep, List.map_cons, hlevel, List.drop_eq_nil_of_le (by rw [length_wave]; exact hlast.ge)]
        rfl
      · rw [completionsIn_succ hstep, ht.done, completionsIn_zero, if_pos rfl]

/-- One completion takes the head off the queue. -/
theorem q_of_one_completion (hr : NoResetFor k s) (hrun : Reaches k s t) (hone : completionsIn k s = 1)
    (hq : s.q ≠ []) : t.q = s.q.tail ++ pushedIn k s := by
  rw [(framesLeaveInPushOrder k s t hr hrun).2, hone, List.drop_one, List.tail_append_of_ne_nil hq]

/-- With nothing commanded meanwhile, the rest of a transmission leaves the frames behind it. -/
theorem playing_to_end_of_nopsFor (h : Playing f n s) (hk : n + k = ticksOf f) (hnops : NopsFor k s) :
    ∃ t, Reaches k s t ∧ FrameEnded t ∧ (observe k s).map Outputs.dout = (wave (pulseSpec params) f).drop n ∧
      completionsIn k s = 1 ∧ t.q = s.q.tail := by
  have hr := noResetFor_of_nopsFor hnops
  have hne : s.q ≠ [] := fun hnil => by simpa [hnil] using h.head
  obtain ⟨t, hrun, hend, hlevels, hone⟩ := playing_to_end h hk hr
  refine ⟨t, hrun, hend, hlevels, hone, ?_⟩
  rw [q_of_one_completion hr hrun hone hne, pushedIn_of_nopsFor hnops hrun, List.append_nil]

/-- The block behind a transmission is idle with an empty queue, or at the first tick of the frame behind it. -/
theorem idle_or_atFirstTick_of_frameEnded (h : FrameEnded t) :
    (t.act = false ∧ t.q = []) ∨ ∃ g, AtFirstTick t g := by
  cases hq : t.q with
  | nil => exact .inl ⟨by simp [h.act, hq], rfl⟩
  | cons g rest => exact .inr ⟨g, by simp [h.act, hq], h.pos, by simp [hq]⟩

/-- Settles O42: before its end by the ticks inside the transmission, at its end by the completion. -/
theorem frameInFlightPlaysItsWaveform : Obligations.FrameInFlightPlaysItsWaveform := by
  intro s f ⟨ha, hpos, hhead⟩ hsize hr k hk
  have hplay := playing_of_start ha hpos hhead hsize
  rcases Nat.lt_or_eq_of_le hk with hlt | rfl
  · obtain ⟨t, hrun, ht, hq, hdone⟩ :=
      playing_run hplay (fun j hj => hr j (hj.trans hlt)) ((Nat.zero_add k).symm ▸ hlt)
    rw [Nat.zero_add] at ht
    exact ⟨t, pushedIn k s, hrun, fun _ => ⟨wave_getElem?_of_playing ht, ht.act, hq, hdone⟩,
      fun h => absurd h hlt.ne⟩
  · obtain ⟨t, hrun, ht, -, hone⟩ := playing_to_end hplay (Nat.zero_add _) hr
    have hne : s.q ≠ [] := fun hnil => by simp [hnil] at hhead
    exact ⟨t, _, hrun, fun h => absurd h (Nat.lt_irrefl _),
      fun _ => ⟨ht.done, q_of_one_completion hr hrun hone hne, idle_or_atFirstTick_of_frameEnded ht⟩⟩

/-! ### The outstanding frames of a silent host (R149, R182) -/

/-- The ticks that the frames of a queue last. -/
abbrev ticksOfAll (q : List Frame) : Nat := (q.map (duration (pulseSpec params))).sum

theorem dout_of_atRest (h : AtRest t) : dout t = false := by rw [dout, h.2, Bool.false_and]

/-- From between two transmissions a silent block plays all its frames and comes to rest, by induction on the queue. -/
theorem playAll_of_silent (hsilent : s.inputs = []) (hsize : ∀ f ∈ s.q, f.length = params.frameBytes)
    (ha : s.act = decide (s.q ≠ [])) (hpos : s.pos = Position.start) :
    (observe (ticksOfAll s.q) s).map Outputs.dout = s.q.flatMap (wave (pulseSpec params)) ∧
    completionsIn (ticksOfAll s.q) s = s.q.length ∧ ∃ t, Reaches (ticksOfAll s.q) s t ∧ AtRest t := by
  induction hq : s.q generalizing s with
  | nil => exact ⟨rfl, completionsIn_zero s, s, reaches_zero.2 rfl, hq, by simp [ha, hq]⟩
  | cons f rest ih =>
    have hplay : Playing f 0 s := playing_of_start (by simp [ha, hq]) hpos (by simp [hq]) (hsize f (by simp [hq]))
    obtain ⟨u, hrun, hend, hlevels, hone, hqu⟩ :=
      playing_to_end_of_nopsFor hplay (Nat.zero_add _) (nopsFor_of_silent hsilent _)
    obtain ⟨hlevels', hcount, t, hrun', hrest⟩ := ih (inputs_of_silent_run hsilent hrun)
      (fun g hg => hsize g (List.mem_of_mem_tail (hqu ▸ hg))) hend.act hend.pos (by rw [hqu, hq, List.tail_cons])
    rw [List.drop_zero] at hlevels
    rw [ticksOfAll, List.map_cons, List.sum_cons, observe_add hrun, completionsIn_add hrun, List.map_append, hlevels,
      hlevels', hone, hcount]
    exact ⟨rfl, by rw [List.length_cons, Nat.add_comm], t, reaches_add hrun hrun', hrest⟩

theorem frameSize_of_inv (h : Inv params s) : ∀ f ∈ s.q, f.length = params.frameBytes := fun f hf => by
  obtain ⟨col, rfl⟩ := h.framesBroadcast f hf
  exact frameOf_length params col

/-- Settles O43: the first tick of a frame is a place between two transmissions. -/
theorem outstandingFramesPlayBackToBack : Obligations.OutstandingFramesPlayBackToBack := by
  intro s hinv hsilent ha hpos
  have hact : s.act = decide (s.q ≠ []) := by rw [ha, decide_eq_true (hinv.actHasFrame ha)]
  obtain ⟨hlevels, hcount, t, hrun, hrest⟩ := playAll_of_silent hsilent (frameSize_of_inv hinv) hact hpos
  exact ⟨hlevels, hcount, t, hrun, hrest, dout_of_atRest hrest⟩

/-- A tick of an idle block with a frame waiting starts that frame, whatever command it carries (R148). -/
theorem step_of_waiting (hi : nextInstr s ≠ .reset) (ha : s.act = false) (hq : s.q ≠ []) :
    ∃ t, step s = .next t ∧ t.act = true ∧ t.pos = Position.start ∧ t.txDone = false ∧
      t.q = s.q ++ pushedFrames params (nextInstr s) s := by
  rw [step_of_ne_reset hi]
  refine ⟨_, serPhase_start params ((commandPhase_act ..).trans ha) (by simp [hq]), rfl, rfl, rfl, ?_⟩
  exact (commandPhase_q ..).trans (by rw [popInput_q, pushedFrames_popInput])

/-- Settles O44: an idle block rests or starts its frame, a playing block ends the one in flight; then all frames are
played. -/
theorem silentBlockComesToRest : Obligations.SilentBlockComesToRest := by
  intro s hinv hsilent
  have hsize := frameSize_of_inv hinv
  cases ha : s.act with
  | false =>
    by_cases hq : s.q = []
    · exact ⟨0, s, Nat.zero_le _, reaches_zero.2 rfl, ⟨hq, ha⟩, dout_of_atRest ⟨hq, ha⟩,
        by rw [completionsIn_zero, hq, List.length_nil]⟩
    · have hi : nextInstr s = .nop := nextInstr_of_nil hsilent
      obtain ⟨u, hstep, hact, hpos, hclear, hqu⟩ := step_of_waiting (by simp [hi]) ha hq
      rw [hi, pushedFrames, List.append_nil] at hqu
      obtain ⟨-, hcount, t, hrun, hrest⟩ := playAll_of_silent (s := u)
        (by rw [step_inputs hstep, hsilent, List.tail_nil]) (by rwa [hqu]) (by simp [hact, hqu, hq]) hpos
      rw [hqu] at hcount hrun
      exact ⟨_, t, Nat.le_refl _, reaches_succ.2 ⟨u, hstep, hrun⟩, hrest, dout_of_atRest hrest,
        by rw [completionsIn_succ hstep, hclear, hcount, if_neg Bool.false_ne_true, Nat.zero_add]⟩
  | true =>
    obtain ⟨f, n, hplay⟩ := exists_playing_of_inv hinv ha
    obtain ⟨rest, hq⟩ : ∃ rest, s.q = f :: rest := ⟨s.q.tail, List.eq_cons_of_mem_head? hplay.head⟩
    obtain ⟨u, hrun, hend, -, hone, hqu⟩ := playing_to_end_of_nopsFor hplay
      (Nat.add_sub_cancel' (lt_ticksOf_of_playing hplay).le) (nopsFor_of_silent hsilent _)
    obtain ⟨-, hcount, t, hrun', hrest⟩ := playAll_of_silent (s := u) (inputs_of_silent_run hsilent hrun)
      (fun g hg => hsize g (List.mem_of_mem_tail (hqu ▸ hg))) hend.act hend.pos
    refine ⟨_, t, ?_, reaches_add hrun hrun', hrest, dout_of_atRest hrest, ?_⟩
    · rw [hqu, hq, List.map_cons, List.sum_cons, List.tail_cons]
      exact (Nat.add_le_add_right (Nat.sub_le _ _) _).trans (Nat.le_succ _)
    · rw [completionsIn_add hrun, hone, hcount, hqu, hq, List.tail_cons, List.length_cons, Nat.add_comm]

/-! ### Completions (R232) -/

theorem two_mul_length_le_bitsTicks {ps : PulseSpec} (hparts : ∀ b ph, 1 ≤ partTicks ps b ph) (bits : List Bool) :
    2 * bits.length ≤ bitsTicks ps bits := by
  induction bits with
  | nil => exact Nat.le_refl 0
  | cons b bits ih =>
    have hhigh := hparts b true
    have hlow := hparts b false
    rw [partTicks_high] at hhigh
    rw [partTicks_low] at hlow
    rw [bitsTicks_cons, List.length_cons]
    omega

/-- Settles O46: the completion flag comes with the start position, and a frame does not end there. -/
theorem completionsAreNeverAdjacent : Obligations.CompletionsAreNeverAdjacent := by
  refine ⟨fun s t hinv hdone hstep => ?_, fun c f hsize => ?_⟩
  · by_cases hi : nextInstr s = .reset
    · rw [eq_reset_of_step hstep hi, resetOf_txDone]
    · rw [step_of_ne_reset hi] at hstep
      rw [Bool.eq_false_iff]
      intro hdone'
      obtain ⟨-, -, -, -, hph⟩ := lastPart_of_serPhase_txDone hstep hdone'
      rw [commandPhase_pos, popInput_pos, hinv.doneAtStart hdone, start_ph] at hph
      cases hph
  · have hle := two_mul_length_le_bitsTicks (partTicks_pos c) (f.flatMap bitsOfByte)
    rw [length_flatMap_bitsOfByte, hsize] at hle
    rw [duration_eq_bitsTicks, Config.frameBits, Nat.mul_comm c.frameBytes]
    exact hle

/-! ### Startup (R176, R223) -/

/-- While reset is held the block stays in the reset state (R171, R176). -/
theorem reaches_of_held_reset (n : Nat) (inputs : List InputVec)
    (h : ∀ k < n, rstOf (inputs.getD k silentInput) = true) :
    Reaches n { State.reset with inputs := inputs } { State.reset with inputs := inputs.drop n } := by
  induction n generalizing inputs with
  | zero => exact reaches_zero.2 rfl
  | succ n ih =>
    have hfirst : rstOf (nextInput { State.reset with inputs := inputs }) = true := by
      rw [← inputAt_zero]
      exact h 0 (Nat.succ_pos n)
    have hrest := ih inputs.tail fun k hk => by
      have hnext := h (k + 1) (Nat.succ_lt_succ hk)
      cases inputs <;> simpa using hnext
    rw [List.drop_tail] at hrest
    exact reaches_succ.2 ⟨_, step_of_rst hfirst, hrest⟩

/-- The first tick of the reset state without reset is the one before the first tick of the startup frame, whatever
command it carries (R148, R176). -/
theorem step_of_resetState (hs : IsResetState params s) (hi : nextInstr s ≠ .reset) :
    ∃ t, step s = .next t ∧ AtFirstTick t (frameOf params params.defaultColor) ∧ t.txDone = false ∧
      t.q = [frameOf params params.defaultColor] ++ pushedFrames params (nextInstr s) s := by
  have hq : s.q = [frameOf params params.defaultColor] := congrArg State.q hs
  obtain ⟨t, hstep, hact, hpos, hclear, hqt⟩ :=
    step_of_waiting hi (congrArg State.act hs) (hq ▸ List.cons_ne_nil _ _)
  rw [hq] at hqt
  exact ⟨t, hstep, ⟨hact, hpos, by rw [hqt, List.cons_append, List.head?_cons]⟩, hclear, hqt⟩

/-- Settles O47: the reset state while reset is held, the start of its frame at the first edge without. -/
theorem powerIsHighBeforeTheStartupFrame : Obligations.PowerIsHighBeforeTheStartupFrame := by
  refine ⟨fun n inputs h => ⟨_, reaches_of_held_reset n inputs h, rfl, rfl⟩, fun s hs hrst => ?_⟩
  obtain ⟨t, hstep, hfirst, -⟩ := step_of_resetState hs (decode_ne_reset hrst)
  refine ⟨t, hstep, hfirst, ?_⟩
  rw [dout, hfirst.1, hfirst.2.1]
  rfl

/-- The startup frame. -/
abbrev startupFrame : Frame := frameOf params params.defaultColor

/-- The first tick after the reset state, with `NOP`s before and after it. -/
theorem playing_startupFrame (hs : IsResetState params s) (h : NopsFor (k + 1) s) :
    ∃ t, step s = .next t ∧ Playing startupFrame 0 t ∧ t.txDone = false ∧ t.q = [startupFrame] ∧ NopsFor k t := by
  have hi := nextInstr_of_nopsFor h
  obtain ⟨t, hstep, ⟨hact, hpos, hhead⟩, hclear, hq⟩ := step_of_resetState hs (by simp [hi])
  rw [hi, pushedFrames, List.append_nil] at hq
  exact ⟨t, hstep, playing_of_start hact hpos hhead (frameOf_length _ _), hclear, hq, nopsFor_succ hstep h⟩

/-- The ticks of the startup frame (R223). -/
theorem startup_inside (hs : IsResetState params s) (h : NopsFor (k + 1) s) (hk : k < ticksOf startupFrame) :
    ∃ t, Reaches (k + 1) s t ∧ Playing startupFrame k t ∧ t.txDone = false := by
  obtain ⟨u, hstep, hplay, hclear, -, hnops⟩ := playing_startupFrame hs h
  obtain ⟨t, hrun, ht, -, hdone⟩ :=
    playing_run hplay (noResetFor_of_nopsFor hnops) ((Nat.zero_add k).symm ▸ hk)
  rw [Nat.zero_add] at ht
  refine ⟨t, reaches_succ.2 ⟨u, hstep, hrun⟩, ht, ?_⟩
  rcases Nat.eq_zero_or_pos k with rfl | hpos
  · exact reaches_zero.1 hrun ▸ hclear
  · exact hdone hpos

/-- The ticks behind the startup frame: at rest, the completion flag up in the first of them (R223). -/
theorem startup_after (hs : IsResetState params s) (h : NopsFor (ticksOf startupFrame + k + 1) s) :
    ∃ t, Reaches (ticksOf startupFrame + k + 1) s t ∧ AtRest t ∧ (t.txDone = true ↔ k = 0) := by
  obtain ⟨u, hstep, hplay, -, hq, hnops⟩ := playing_startupFrame hs h
  obtain ⟨v, hrun, hend, -, -, hqv⟩ :=
    playing_to_end_of_nopsFor hplay (Nat.zero_add _) (nopsFor_mono hnops (Nat.le_add_right _ k))
  rw [hq, List.tail_cons] at hqv
  obtain ⟨t, hrun', hrest, hdone⟩ :=
    rest_run (s := v) ⟨hqv, by simp [hend.act, hqv]⟩ (nopsFor_of_reaches hnops hrun)
  refine ⟨t, reaches_succ.2 ⟨u, hstep, reaches_add hrun hrun'⟩, hrest, ?_⟩
  rw [hdone, hend.done, and_iff_left rfl]

/-- Settles O48: the reset state, the ticks of the startup frame, the ticks behind it. -/
theorem startupFramePlaysOnceAfterReset : Obligations.StartupFramePlaysOnceAfterReset := by
  refine ⟨fun s n hs h => ?_, duration_reference _⟩
  cases n with
  | zero =>
    have hact : s.act = false := congrArg State.act hs
    have hclear : s.txDone = false := congrArg State.txDone hs
    exact ⟨s, reaches_zero.2 rfl, fun _ => by rw [dout, hact, Bool.false_and], by simp, by simp, by simp [hclear]⟩
  | succ k =>
    by_cases hk : k < ticksOf startupFrame
    · obtain ⟨t, hrun, ht, hclear⟩ := startup_inside hs h hk
      refine ⟨t, hrun, by simp, fun _ _ => ?_, fun hle => ?_, ?_⟩
      · rw [Nat.add_sub_cancel]
        exact wave_getElem?_of_playing ht
      · exact absurd hk (Nat.not_lt.2 (Nat.le_of_add_le_add_right hle))
      · rw [hclear, Nat.add_right_cancel_iff]
        exact ⟨fun h => absurd h Bool.false_ne_true, fun h => absurd h hk.ne⟩
    · obtain ⟨j, hj⟩ := Nat.exists_eq_add_of_le (Nat.not_lt.1 hk)
      rw [hj] at h ⊢
      obtain ⟨t, hrun, hrest, hdone⟩ := startup_after hs h
      refine ⟨t, hrun, by simp, fun _ hle => ?_, fun _ => ⟨hrest, dout_of_atRest hrest⟩, ?_⟩
      · exact absurd hle (Nat.not_le.2 (Nat.lt_succ_of_le (Nat.le_add_right _ j)))
      · rw [hdone, Nat.add_right_cancel_iff, Nat.add_eq_left]

/-! ### The host's duty (R230, R231) -/

/-- A command phase that finds a free slot does not answer `Busy` (R194). -/
theorem commandPhase_ne_busy {c : Config} {i : Instr} (hi : i ≠ .reset) (hq : s.q.length < c.queueDepth)
    (hvalid : (commandPhase c i s).rspValid = true) : (commandPhase c i s).rspStatus ≠ .busy := by
  cases i with
  | reset => exact absurd rfl hi
  | nop => exact nomatch hvalid
  | setColor len data =>
    simp only [commandPhase]
    rcases doColor_cases c len data s with ⟨e, -, hdo⟩ | ⟨col, -, hfull, -⟩ | ⟨col, -, -, hdo⟩
    · rw [hdo]
      exact decodeStatus_ne_busy e
    · exact absurd hq (Nat.not_lt.2 hfull)
    · rw [hdo]
      exact nofun
  | setPower len data =>
    simp only [commandPhase]
    rcases doPower_cases c len data s with ⟨e, -, hdo⟩ | ⟨-, hdo⟩ | ⟨-, hfull, -⟩ | ⟨-, -, hdo⟩
    · rw [hdo]
      exact decodeStatus_ne_busy e
    · rw [hdo]
      exact nofun
    · exact absurd hq (Nat.not_lt.2 hfull)
    · rw [hdo]
      exact nofun

/-- One tick of a host that keeps its duty (R231). -/
theorem step_of_duty {quiet : Nat} (hq : s.q.length ≤ 1) (hi : nextInstr s ≠ .reset) (hduty : DutyAt params quiet s)
    (hstep : step s = .next t) : t.q.length ≤ 1 ∧ (t.rspValid = true → t.rspStatus ≠ .busy) := by
  have hpushed : (s.q ++ pushedFrames params (nextInstr s) s).length ≤ 1 := by
    by_cases hnone : pushedFrames params (nextInstr s) s = []
    · rwa [hnone, List.append_nil]
    · rw [(hduty hnone).1, List.nil_append]
      exact length_pushedFrames_le_one ..
  refine ⟨?_, fun hvalid => ?_⟩
  · rw [(step_q hi hstep).1]
    split_ifs
    · rw [List.length_tail]
      omega
    · exact hpushed
  · obtain ⟨-, -, hv, hst⟩ := step_registers hstep hi
    rw [hst]
    exact commandPhase_ne_busy hi (hq.trans_lt (by decide)) (hv.symm.trans hvalid)

/-- Settles O49, by induction on the ticks: with one frame outstanding at most, a slot is free. -/
theorem dutifulHostNeverSeesBusy : Obligations.DutifulHostNeverSeesBusy := by
  intro n quiet s t hq hduty hrun
  induction n generalizing quiet s with
  | zero => exact ⟨reaches_zero.1 hrun ▸ hq, fun h => absurd h (Nat.lt_irrefl 0)⟩
  | succ n ih =>
    obtain ⟨u, hstep, hrun'⟩ := reaches_succ.1 hrun
    obtain ⟨hi, hnow, hlater⟩ := hduty
    obtain ⟨hqu, hbusy⟩ := step_of_duty hq hi hnow hstep
    obtain ⟨hqt, hbusy'⟩ := ih _ u hqu (hlater u (step_eq_stepOn s ▸ hstep)) hrun'
    refine ⟨hqt, fun _ => ?_⟩
    cases n with
    | zero => exact reaches_zero.1 hrun' ▸ hbusy
    | succ n => exact hbusy' (Nat.succ_pos n)

end Sys2Proof.Machine
end
